-- ==== Sys2Proof/Config.lean ====
section
/-! DEFINITION. The parameters of the block, each with the value this hardware takes (00_scope.md R6), and its one
free value (30_encoding.md R78). The widths of the word types (Word.lean) are these constants. -/

namespace Sys2Proof.Config

/-- `ACCW`: the width of the accumulator. -/
@[simp] abbrev accw : Nat := 64

/-- `FILL` = `ACCW - 8`: the refill loop pulls another byte while `cnt <= FILL` (40_fixed_width.md R90). -/
def fill : Nat := accw - 8

/-- `MAXZ`: the largest admitted run of leading zero bits of a UVLC code. The spec leaves it OPEN in 0..31 and gives
this hardware 20. DESIGN CHOICE, log entry 11: the default is taken; unsafe for a block built with another cap. -/
def maxz : Nat := 20

/-- `NMAX`: the largest `n` of GETBITS, PEEKBITS and SKIPBITS (30_encoding.md R72). -/
def nmax : Nat := 32

/-- `VALW`: the width of the value field of a response (30_encoding.md R76). -/
@[simp] abbrev valw : Nat := 32

/-- `ADDRW`: the width of a byte address. The spec leaves it OPEN from 8 up and gives this hardware 32.
DESIGN CHOICE, log entry 11: the default is taken; unsafe for a block built with another width. -/
@[simp] abbrev addrw : Nat := 32

/-- `OFFW` = `ADDRW`: the width of `off` and `len` (10_state.md R20). -/
@[simp] abbrev offw : Nat := addrw

/-- `CMDW`: the width of a command word (30_encoding.md R71). -/
@[simp] abbrev cmdw : Nat := 16

/-- The number of byte addresses of the buffer memory, `2^ADDRW` (20_memory.md R50). -/
def addressSpace : Nat := 2 ^ addrw

/-- FREE VALUE. The value delivered with the `k`-th `GOLOMB_ERR` response: "a model draws any 32-bit value"
(30_encoding.md R78), "drawn afresh each time" (93_implementation_defined.md U1). It has no body, so nothing can be
proved from it. DESIGN CHOICE of the form, log entry 5; safe. -/
opaque golombErrValue : Nat → BitVec valw

end Sys2Proof.Config
end

