-- ==== Sys2Proof/Word.lean ====
section
/-! DEFINITION. The word types of the block: the widths of 00_scope.md R6 and 10_state.md R20. -/

namespace Sys2Proof

/-- One byte of the buffer memory, a value 0..255 (20_memory.md R50). -/
abbrev Byte := BitVec 8

/-- A byte address, `base`: `ADDRW` bits (00_scope.md R6). -/
abbrev Addr := BitVec Config.addrw

/-- A byte count, `len` and `off`: `OFFW` bits (00_scope.md R6). -/
abbrev Offset := BitVec Config.offw

/-- The accumulator `acc`: `ACCW` bits (10_state.md R24). -/
abbrev Acc := BitVec Config.accw

/-- The count of valid bits `cnt`: 7 bits, values 0..64 (10_state.md R25). -/
abbrev Count := BitVec 7

/-- The value field of a response: `VALW` bits (30_encoding.md R76). -/
abbrev Value := BitVec Config.valw

/-- A command word: `CMDW` bits (30_encoding.md R71). -/
abbrev CommandWord := BitVec Config.cmdw

/-- The bit count `n` of a command word, `cmd[5:0]` (30_encoding.md R72). -/
abbrev BitCount := BitVec 6

end Sys2Proof
end

