-- ==== Sys2Proof/Syntax.lean ====
section
/-! DEFINITION. The commands of the block (30_encoding.md R70), one constructor for each row of the opcode table, the
form in which a client presents one (R71, R73), and the pseudo-commands of R82. -/

namespace Sys2Proof

/-- The eight commands of 30_encoding.md R70. `n` is the 6-bit operand of R72; INIT's two operands are its side
operands (R73). -/
inductive Instr where
  /-- GETBITS n (40_fixed_width.md R94). -/
  | getbits (n : BitCount)
  /-- PEEKBITS n (40_fixed_width.md R95). -/
  | peekbits (n : BitCount)
  /-- SKIPBITS n (40_fixed_width.md R96). -/
  | skipbits (n : BitCount)
  /-- ALIGN (40_fixed_width.md R97). -/
  | align
  /-- UVLC (41_golomb.md R111). -/
  | uvlc
  /-- SVLC (41_golomb.md R113). -/
  | svlc
  /-- RBSPTRAIL (42_trailing_bits.md R125). -/
  | rbsptrail
  /-- INIT (43_control.md R135), with the side operands it samples. -/
  | init (initBase : Addr) (initLen : Offset)
deriving DecidableEq, Repr

/-- What a client presents: the command word and the two operand inputs beside it (30_encoding.md R71, R73). -/
structure Command where
  /-- The command word `cmd`. -/
  word : CommandWord
  /-- The operand input `init_base`, ignored by every command but INIT. -/
  initBase : Addr
  /-- The operand input `init_len`, ignored by every command but INIT. -/
  initLen : Offset
deriving DecidableEq, Repr

/-- Why a command word is illegal, in the words of 30_encoding.md R75. -/
inductive Reject where
  /-- `cmd[11:6]` is not zero. -/
  | reservedBits
  /-- Opcode 0x0 or 0x9 to 0xF. -/
  | reservedOpcode
  /-- GETBITS, PEEKBITS or SKIPBITS with `n > 32`. -/
  | countTooLarge
  /-- ALIGN, UVLC, SVLC, RBSPTRAIL or INIT with `n != 0`. -/
  | operandNotZero
deriving DecidableEq, Repr

/-- The pseudo-commands of 30_encoding.md R82. None is known to the block. -/
inductive Pseudo where
  | getbit
  | getbyte
  | getbytes (k : Nat)
  | skipmarker
  | skipreserved (k : BitCount)
  | skiplong (total : Nat)
  | getbits64
deriving DecidableEq, Repr

end Sys2Proof
end

