-- ==== Sys2Proof/WellFormed.lean ====
section
/-! DEFINITION. Which terms of `Instr` are commands: the operand range of 30_encoding.md R72. -/

namespace Sys2Proof

/-- `n` is a legal bit count: 0 to `NMAX` (30_encoding.md R72). -/
abbrev BitCount.Legal (n : BitCount) : Prop := n.toNat ≤ Config.nmax

/-- A command of the block: GETBITS, PEEKBITS and SKIPBITS need a legal bit count (30_encoding.md R72, R74). INIT's
window is checked when it executes, not here (43_control.md R135). -/
abbrev Instr.WellFormed : Instr → Prop
  | .getbits n => BitCount.Legal n
  | .peekbits n => BitCount.Legal n
  | .skipbits n => BitCount.Legal n
  | .align => True
  | .uvlc => True
  | .svlc => True
  | .rbsptrail => True
  | .init _ _ => True

end Sys2Proof
end

