-- ==== Sys2Proof/Decode.lean ====
section
/-! DEFINITION. The decoder of 30_encoding.md R74, total on every command word and rejecting by name, and after it the
encoder written from the format of R71. -/

namespace Sys2Proof

/-- `op = cmd[15:12]` (30_encoding.md R71). -/
def opField (w : CommandWord) : BitVec 4 := w.extractLsb' 12 4

/-- `rsv = cmd[11:6]` (30_encoding.md R71). -/
def rsvField (w : CommandWord) : BitVec 6 := w.extractLsb' 6 6

/-- `n = cmd[5:0]` (30_encoding.md R71). -/
def nField (w : CommandWord) : BitCount := w.extractLsb' 0 6

/-- A command that takes a bit count: legal from 0 to 32 (30_encoding.md R74). -/
def decodeCounted (command : BitCount → Instr) (n : BitCount) : Except Reject Instr :=
  if n.toNat ≤ Config.nmax then .ok (command n) else .error .countTooLarge

/-- A command that takes no bit count: legal when `n` is 0 (30_encoding.md R74). -/
def decodePlain (command : Instr) (n : BitCount) : Except Reject Instr :=
  if n = 0 then .ok command else .error .operandNotZero

/-- The decode function of 30_encoding.md R74. INIT takes its operands from the two operand inputs, which every other
command ignores (R73). -/
def decode (c : Command) : Except Reject Instr :=
  if rsvField c.word ≠ 0 then .error .reservedBits
  else
    match (opField c.word).toNat with
    | 1 => decodeCounted .getbits (nField c.word)
    | 2 => decodeCounted .peekbits (nField c.word)
    | 3 => decodeCounted .skipbits (nField c.word)
    | 4 => decodePlain .align (nField c.word)
    | 5 => decodePlain .uvlc (nField c.word)
    | 6 => decodePlain .svlc (nField c.word)
    | 7 => decodePlain .rbsptrail (nField c.word)
    | 8 => decodePlain (.init c.initBase c.initLen) (nField c.word)
    | _ => .error .reservedOpcode

/-- The opcode `op` of each command (the table of 30_encoding.md R70). -/
def Instr.opcode : Instr → BitVec 4
  | .getbits _ => 1
  | .peekbits _ => 2
  | .skipbits _ => 3
  | .align => 4
  | .uvlc => 5
  | .svlc => 6
  | .rbsptrail => 7
  | .init _ _ => 8

/-- The field `n` of each command's word: the bit count, or 0 (30_encoding.md R71). -/
def Instr.countField : Instr → BitCount
  | .getbits n => n
  | .peekbits n => n
  | .skipbits n => n
  | .align => 0
  | .uvlc => 0
  | .svlc => 0
  | .rbsptrail => 0
  | .init _ _ => 0

/-- The command word: `op`, then six zero bits, then `n` (30_encoding.md R71). -/
def encodeWord (i : Instr) : CommandWord := i.opcode ++ (0 : BitVec 6) ++ i.countField

/-- What a client presents for a command: its word, and for INIT its operands on the operand inputs. The inputs are
ignored for every other command (30_encoding.md R73); they are written 0 there. -/
def encode (i : Instr) : Command :=
  match i with
  | .init b l => ⟨encodeWord i, b, l⟩
  | _ => ⟨encodeWord i, 0, 0⟩

/-- The command a client presents when the opcode table's bits are `w` and every bit above them, and both operand
inputs, are 0 (log entry 14). -/
def tableCommand (nbits w : Nat) : Command := ⟨BitVec.ofNat Config.cmdw (w % 2 ^ nbits), 0, 0⟩

/-- The command the decoder reads from an opcode-table word. A command is one 16-bit word (30_encoding.md R71, R80), so
a number that does not fit one is no command. -/
def decodeTableWord (nbits w : Nat) : Option Instr :=
  if w % 2 ^ nbits < 2 ^ Config.cmdw then (decode (tableCommand nbits w)).toOption else none

end Sys2Proof
end

