-- ==== Sys2Proof/Machine/State.lean ====
section
/-! DEFINITION. The state of the machine as plain data: the five registers of 10_state.md R20, the buffer memory, and the
model's own fields for what crosses the block's boundary (60_exceptions.md R160). -/

namespace Sys2Proof.Machine

/-- The buffer memory in canonical form: addresses strictly rising, no entry equal to what an unlisted address reads as
(`Memory.wf` in Machine/Ops.lean). -/
abbrev Memory := List Host.Cell

/-- The status of a response (30_encoding.md R77). Code 2 is never produced, so it is no constructor
(93_implementation_defined.md U4). -/
inductive Status where
  /-- 0: the command was legal and completed. -/
  | ok
  /-- 1: UVLC or SVLC saw more than `MAXZ` leading zero bits. -/
  | golombErr
  /-- 3: the command word was illegal or an INIT's operands were refused. -/
  | illegal
deriving DecidableEq, Repr

/-- A response `respond(status, value)` (30_encoding.md R76). -/
structure Response where
  status : Status
  value : Value
deriving DecidableEq, Repr

/-- Why a step stops. The block itself has no trap and no stuck state (93_implementation_defined.md, end of section 1);
both reasons stand for states that no run from reset reaches. -/
inductive Fault where
  /-- Raised by the byte read of `REFILL` when `base + off` is at or past `2^ADDRW`: no such address exists
  (20_memory.md R50, R51). Invariant I7 of 10_state.md R26 rules it out. Safe (log entry 8). -/
  | addressOutsideMemory
  /-- Raised by RBSPTRAIL when its loop would never end, which needs `off > len` (42_trailing_bits.md R125).
  Invariant I2 of 10_state.md R26 rules it out. Safe (log entry 9). -/
  | trailingCheckNeverEnds
deriving DecidableEq, Repr

/-- Why a step gives no meaning. -/
inductive Refusal where
  /-- Raised by `exec` for an instruction that has no meaning yet; no arm raises it in this model. Safe. -/
  | notModelled (mnemonic : String)
deriving DecidableEq, Repr

/-- The machine: the block's registers, the memory it reads, and the model's own records of its boundary. -/
structure State where
  /-- Byte address of the first byte of the buffer (10_state.md R21). -/
  base : Addr
  /-- Number of bytes of the buffer (10_state.md R22). -/
  len : Offset
  /-- Number of buffer bytes already pulled into the accumulator (10_state.md R23). -/
  off : Offset
  /-- The accumulator: valid bits at the most significant end, zeros below (10_state.md R24). -/
  acc : Acc
  /-- The count of valid bits (10_state.md R25). -/
  cnt : Count
  /-- The buffer memory `M`, the host's, read only to the block (20_memory.md R50). -/
  mem : Memory
  /-- MODEL's own: the commands the client presents from here on, first command first (log entry 1). -/
  commands : List Command
  /-- MODEL's own: the responses given so far, oldest first (log entry 3). -/
  responses : List Response
  /-- MODEL's own: the byte addresses presented on the memory port so far, oldest first (log entry 4). -/
  reads : List Nat
  /-- MODEL's own: how many unspecified values have been drawn (log entry 5). -/
  draws : Nat
deriving DecidableEq, Repr

/-- The machine right after reset: every register 0 (10_state.md R35, 70_reset_and_hazards.md R170); no memory byte
listed (log entry 6); nothing presented, answered, read or drawn (log entries 1, 3, 4, 5). -/
def State.reset : State where
  base := 0
  len := 0
  off := 0
  acc := 0
  cnt := 0
  mem := []
  commands := []
  responses := []
  reads := []
  draws := 0

end Sys2Proof.Machine
end

