-- ==== Sys2Proof/Machine/Flags.lean ====
section
/-! DEFINITION. The block has no flags, no condition codes and no sticky error bit (10_state.md R29). Its one condition is
`exhausted`, a function of state; the status code of a response takes the place of flags (30_encoding.md R77). -/

namespace Sys2Proof.Machine

/-- `exhausted = (off = len and cnt = 0)` (10_state.md R29): a function of state, used inside RBSPTRAIL only. -/
def State.exhausted (s : State) : Bool := s.off == s.len && s.cnt == 0

/-- The 2-bit code of a status (the table of 30_encoding.md R77). -/
def Status.code : Status → BitVec 2
  | .ok => 0
  | .golombErr => 1
  | .illegal => 3

end Sys2Proof.Machine
end

