-- ==== Sys2Proof/Machine/Ops.lean ====
section
/-! DEFINITION. The operations every command is built from: the buffer memory and its one access (20_memory.md R50, R51),
the responses (30_encoding.md R76 to R78), and the internal procedures `REFILL`, `get` and `peek` (40_fixed_width.md R90,
R92, R93). The block takes no exception and returns from none (60_exceptions.md R153, R155): a response is all that an
error outcome is. -/

namespace Sys2Proof.Machine

/-! ### The buffer memory -/

/-- What an address that the memory does not list reads as. The spec gives every address a value 0..255 (20_memory.md
R50) and no contents. DESIGN CHOICE, log entry 6: 0; unsafe for claims about memory the host has not filled. -/
def unlistedByte : Byte := 0

/-- `M[a]` (20_memory.md R50). -/
def Memory.read : Memory → Nat → Byte
  | [], _ => unlistedByte
  | (k, v) :: m, a => if k = a then v else Memory.read m a

/-- The HOST places a byte (60_exceptions.md R160, "prepare"); the block itself never writes memory (20_memory.md
R53). -/
def Memory.write : Memory → Nat → Byte → Memory
  | [], a, v => if v = unlistedByte then [] else [(a, v)]
  | (k, w) :: m, a, v =>
    if a < k then (if v = unlistedByte then (k, w) :: m else (a, v) :: (k, w) :: m)
    else if a = k then (if v = unlistedByte then m else (a, v) :: m)
    else (k, w) :: Memory.write m a v

/-- Addresses strictly rise from `lo` on and lie in the address space, and no entry is what an unlisted address reads
as. -/
def Memory.wfFrom : Nat → Memory → Bool
  | _, [] => true
  | lo, (a, v) :: m => lo ≤ a && a < Config.addressSpace && v != unlistedByte && Memory.wfFrom (a + 1) m

/-- The one canonical form of a memory. -/
def Memory.wf (m : Memory) : Bool := Memory.wfFrom 0 m

/-- The host writes one byte of the buffer memory. -/
def State.hostWrite (s : State) (a : Addr) (v : Byte) : State := { s with mem := s.mem.write a.toNat v }

/-- The host places bytes at `a`, `a + 1`, … (70_reset_and_hazards.md R172, step 2). -/
def State.hostPlace (s : State) (a : Addr) : List Byte → State
  | [] => s
  | v :: vs => State.hostPlace (s.hostWrite a v) (a + 1) vs

/-! ### Reset -/

/-- Reset applied to a running block: the five registers become 0 (70_reset_and_hazards.md R170). The memory is the
host's and stays; so do the records of the boundary (log entry 7). -/
def State.resetBlock (s : State) : State := { s with base := 0, len := 0, off := 0, acc := 0, cnt := 0 }

/-! ### Commands and responses -/

/-- The command the client presents next, taken off its list; none when the client presents nothing (30_encoding.md
R83; log entries 1 and 2). -/
def State.takeCommand (s : State) : Option (Command × State) :=
  match s.commands with
  | [] => none
  | c :: rest => some (c, { s with commands := rest })

/-- `respond(status, value)`: the one answer of a command (30_encoding.md R76). -/
def State.respond (s : State) (st : Status) (v : Value) : State :=
  { s with responses := s.responses ++ [⟨st, v⟩] }

/-- The response of a failed Golomb read: status `GOLOMB_ERR`, and a value that is unspecified (30_encoding.md R78),
drawn afresh each time (93_implementation_defined.md U1). -/
def State.respondGolombErr (s : State) : State :=
  { s.respond .golombErr (Config.golombErrValue s.draws) with draws := s.draws + 1 }

/-- The response of an illegal command: `(ILLEGAL, 0)`, nothing else changed (60_exceptions.md R148). -/
def State.respondIllegal (s : State) : State := s.respond .illegal 0

/-- `zext_32` of a number (00_scope.md R8, 30_encoding.md R78). -/
def zext32 (v : Nat) : Value := BitVec.ofNat Config.valw v

/-- `sext_32` of a signed number: 32-bit two's complement (00_scope.md R8, 30_encoding.md R78). -/
def sext32 (v : Int) : Value := BitVec.ofInt Config.valw v

/-- The end of a command: its value and state, made the next state by `k`, or its fault. -/
def finish {α : Type} (r : Except Fault (α × State)) (k : α → State → State) : Host.Outcome State Fault Refusal :=
  match r with
  | .ok (a, t) => .next (k a t)
  | .error f => .fault f

/-! ### The byte pull and REFILL -/

/-- `MemRead(addr, 1)` (20_memory.md R50): one byte, with its address recorded on the memory port. An address outside the
address space does not exist (log entry 8). -/
def memRead (a : Nat) (s : State) : Except Fault (Byte × State) :=
  if a < Config.addressSpace then .ok (s.mem.read a, { s with reads := s.reads ++ [a] })
  else .error .addressOutsideMemory

/-- The register writes of one pull (40_fixed_width.md R90): the byte lands below the valid bits. -/
def State.accept (s : State) (b : Byte) : State :=
  { s with
    acc := s.acc ||| (b.setWidth Config.accw <<< (Config.fill - s.cnt.toNat))
    cnt := s.cnt + 8
    off := s.off + 1 }

/-- One turn of the loop of 40_fixed_width.md R90: read the byte at `base + off` (20_memory.md R51) and take it in. -/
def pull (s : State) : Except Fault State :=
  match memRead (s.base.toNat + s.off.toNat) s with
  | .ok (b, t) => .ok (t.accept b)
  | .error f => .error f

/-- The loop condition of 40_fixed_width.md R90: a whole byte still fits, and bytes remain. -/
def State.canPull (s : State) : Bool := s.cnt.toNat ≤ Config.fill && s.off.toNat < s.len.toNat

/-- At most `k` turns of the loop of 40_fixed_width.md R90. -/
def refillLoop : Nat → State → Except Fault State
  | 0, s => .ok s
  | k + 1, s =>
    if s.canPull then
      match pull s with
      | .ok t => refillLoop k t
      | .error f => .error f
    else .ok s

/-- `REFILL` (40_fixed_width.md R90). Each turn adds 8 to `cnt` and needs `cnt <= 56`, so the loop makes at most 8
turns. -/
def refill (s : State) : Except Fault State := refillLoop 8 s

/-- The refill of `get(n)` and `peek(n)`: only when fewer than `n` bits are buffered (40_fixed_width.md R92, R93;
90_conflicts.md C1). -/
def refillFor (n : Nat) (s : State) : Except Fault State := if s.cnt.toNat < n then refill s else .ok s

/-! ### get and peek -/

/-- `acc >> (64 - n)`: the top `n` bits of the accumulator (40_fixed_width.md R92). -/
def State.topBits (s : State) (n : Nat) : Nat := (s.acc >>> (Config.accw - n)).toNat

/-- `acc <- (acc << n) mod 2^64` and `cnt <- cnt - min(n, cnt)` (40_fixed_width.md R92). -/
def State.consume (s : State) (n : Nat) : State :=
  { s with
    acc := s.acc <<< n
    cnt := BitVec.ofNat 7 (s.cnt.toNat - min n s.cnt.toNat) }

/-- `get(n)` for `0 <= n <= 32` (40_fixed_width.md R92). -/
def getBits (n : Nat) (s : State) : Except Fault (Nat × State) :=
  match refillFor n s with
  | .ok t => .ok (t.topBits n, t.consume n)
  | .error f => .error f

/-- `peek(n)` for `0 <= n <= 32` (40_fixed_width.md R93). -/
def peekBits (n : Nat) (s : State) : Except Fault (Nat × State) :=
  match refillFor n s with
  | .ok t => .ok (t.topBits n, t)
  | .error f => .error f

end Sys2Proof.Machine
end

