-- ==== Sys2Proof/Machine/Operands.lean ====
section
/-! DEFINITION. The operand forms of the commands: the bit count `n` (30_encoding.md R72) and INIT's window (43_control.md
R135). -/

namespace Sys2Proof.Machine

/-- A command with a bit count: `n` is used as it stands from 0 to `NMAX`; above that the command is illegal and is
answered so (30_encoding.md R72, R75; log entry 12). -/
def withCount (n : BitCount) (s : State) (k : Nat → Host.Outcome State Fault Refusal) :
    Host.Outcome State Fault Refusal :=
  if n.toNat ≤ Config.nmax then k n.toNat else .next s.respondIllegal

/-- The window `[b, b + l)` fits the address space: `init_base + init_len <= 2^ADDRW` (43_control.md R135). -/
abbrev WindowFits (b : Addr) (l : Offset) : Prop := b.toNat + l.toNat ≤ Config.addressSpace

/-- A fresh cursor over the window (43_control.md R135). -/
def State.installCursor (s : State) (b : Addr) (l : Offset) : State :=
  { s with base := b, len := l, off := 0, acc := 0, cnt := 0 }

end Sys2Proof.Machine
end

