-- ==== Sys2Proof/Machine/Control.lean ====
section
/-! DEFINITION. The control command INIT (43_control.md R135) and the answer to an illegal word (30_encoding.md R75,
60_exceptions.md R148). -/

namespace Sys2Proof.Machine

/-- INIT: refuse a window that does not fit the address space, else start a fresh cursor over it (43_control.md
R135). -/
def execInit (b : Addr) (l : Offset) (s : State) : Host.Outcome State Fault Refusal :=
  if WindowFits b l then .next ((s.installCursor b l).respond .ok 0) else .next s.respondIllegal

/-- An illegal word: `(ILLEGAL, 0)`, no register changed, no memory read (30_encoding.md R75). -/
def execIllegal (s : State) : Host.Outcome State Fault Refusal := .next s.respondIllegal

end Sys2Proof.Machine
end

