-- ==== Sys2Proof/Machine/FixedWidth.lean ====
section
/-! DEFINITION. The fixed-width commands GETBITS, PEEKBITS, SKIPBITS and ALIGN (40_fixed_width.md R94 to R97). -/

namespace Sys2Proof.Machine

/-- GETBITS n: `v <- get(n); respond(OK, zext_32(v))` (40_fixed_width.md R94). -/
def execGetbits (n : BitCount) (s : State) : Host.Outcome State Fault Refusal :=
  withCount n s fun k => finish (getBits k s) fun v t => t.respond .ok (zext32 v)

/-- PEEKBITS n: `v <- peek(n); respond(OK, zext_32(v))` (40_fixed_width.md R95). -/
def execPeekbits (n : BitCount) (s : State) : Host.Outcome State Fault Refusal :=
  withCount n s fun k => finish (peekBits k s) fun v t => t.respond .ok (zext32 v)

/-- SKIPBITS n: `get(n)`, value discarded, `respond(OK, 0)` (40_fixed_width.md R96). -/
def execSkipbits (n : BitCount) (s : State) : Host.Outcome State Fault Refusal :=
  withCount n s fun k => finish (getBits k s) fun _ t => t.respond .ok 0

/-- ALIGN: drop `cnt mod 8` bits, `respond(OK, 0)` (40_fixed_width.md R97). -/
def execAlign (s : State) : Host.Outcome State Fault Refusal :=
  .next ((s.consume (s.cnt.toNat % 8)).respond .ok 0)

end Sys2Proof.Machine
end

