-- ==== Sys2Proof/Machine/Golomb.lean ====
section
/-! DEFINITION. The exponential-Golomb commands UVLC and SVLC (41_golomb.md R111 to R114). -/

namespace Sys2Proof.Machine

/-- The counting loop of `uvlc()` (41_golomb.md R111): `zeros` zero bits are counted and `left` more end the command.
Answers the count, or none when the `left`-th further zero bit exceeds the cap. -/
def countZeros : Nat → Nat → State → Except Fault (Option Nat × State)
  | 0, _, s => .ok (none, s)
  | left + 1, zeros, s =>
    match getBits 1 s with
    | .ok (b, t) => if b = 1 then .ok (some zeros, t) else countZeros left (zeros + 1) t
    | .error f => .error f

/-- The offset and the value, `offset + 2^zeros - 1`, or 0 with no bit read when `zeros = 0` (41_golomb.md R111). -/
def readOffset (zeros : Nat) (s : State) : Except Fault (Option Nat × State) :=
  if zeros = 0 then .ok (some 0, s)
  else
    match getBits zeros s with
    | .ok (offset, t) => .ok (some (offset + 2 ^ zeros - 1), t)
    | .error f => .error f

/-- `uvlc()` (41_golomb.md R111): the decoded value, or none for ERR. The `MAXZ + 1`-th zero bit is the error
(R112). -/
def uvlcRead (s : State) : Except Fault (Option Nat × State) :=
  match countZeros (Config.maxz + 1) 0 s with
  | .ok (some zeros, t) => readOffset zeros t
  | .ok (none, t) => .ok (none, t)
  | .error f => .error f

/-- The signed value of a UVLC value: 0 to 0, even to `-(v div 2)`, odd to `(v + 1) div 2` (41_golomb.md R113,
R114). -/
def signedOfUnsigned (v : Nat) : Int := if v % 2 = 0 then -((v / 2 : Nat) : Int) else ((v + 1) / 2 : Nat)

/-- The answer of UVLC (41_golomb.md R111). -/
def answerUnsigned (r : Option Nat) (s : State) : State :=
  match r with
  | some v => s.respond .ok (zext32 v)
  | none => s.respondGolombErr

/-- The answer of SVLC (41_golomb.md R113). -/
def answerSigned (r : Option Nat) (s : State) : State :=
  match r with
  | some v => s.respond .ok (sext32 (signedOfUnsigned v))
  | none => s.respondGolombErr

/-- UVLC: read one unsigned exponential-Golomb code (41_golomb.md R111). -/
def execUvlc (s : State) : Host.Outcome State Fault Refusal := finish (uvlcRead s) answerUnsigned

/-- SVLC: read one signed exponential-Golomb code (41_golomb.md R113). -/
def execSvlc (s : State) : Host.Outcome State Fault Refusal := finish (uvlcRead s) answerSigned

end Sys2Proof.Machine
end

