-- ==== Sys2Proof/Machine/Trailing.lean ====
section
/-! DEFINITION. The trailing-bit check RBSPTRAIL (42_trailing_bits.md R125, R126). -/

namespace Sys2Proof.Machine

/-- How many one-bit reads the buffer can still answer with a real bit: the bits buffered and the bits of the bytes not
yet pulled. It bounds the loop of RBSPTRAIL (42_trailing_bits.md R126). -/
def State.bitsLeft (s : State) : Nat := s.cnt.toNat + 8 * (s.len.toNat - s.off.toNat)

/-- The loop of 42_trailing_bits.md R125: every bit up to the end must be 0. Each read takes one real bit, so `bitsLeft`
turns reach the end; a state in which they do not has `off > len`, and there the loop never ends (log entry 9). -/
def trailingZeros : Nat → State → Except Fault (Bool × State)
  | 0, s => if s.exhausted then .ok (true, s) else .error .trailingCheckNeverEnds
  | k + 1, s =>
    if s.exhausted then .ok (true, s)
    else
      match getBits 1 s with
      | .ok (b, t) => if b = 1 then .ok (false, t) else trailingZeros k t
      | .error f => .error f

/-- The check of 42_trailing_bits.md R125: the stop bit first, then the loop. -/
def trailingCheck (s : State) : Except Fault (Bool × State) :=
  match getBits 1 s with
  | .ok (stop, t) => if stop = 0 then .ok (false, t) else trailingZeros t.bitsLeft t
  | .error f => .error f

/-- RBSPTRAIL: value 1 for the source's true, 0 for its false, status `OK` in both cases (42_trailing_bits.md R125). -/
def execRbsptrail (s : State) : Host.Outcome State Fault Refusal :=
  finish (trailingCheck s) fun good t => t.respond .ok (if good then 1 else 0)

end Sys2Proof.Machine
end

