-- ==== Sys2Proof/Machine/Dispatch.lean ====
section
/-! DEFINITION. One arm for each command of the opcode table. -/

namespace Sys2Proof.Machine

/-- The meaning of each command. -/
def exec (i : Instr) (s : State) : Host.Outcome State Fault Refusal :=
  match i with
  | .getbits n => Sys2Proof.Machine.execGetbits n s
  | .peekbits n => Sys2Proof.Machine.execPeekbits n s
  | .skipbits n => Sys2Proof.Machine.execSkipbits n s
  | .align => Sys2Proof.Machine.execAlign s
  | .uvlc => Sys2Proof.Machine.execUvlc s
  | .svlc => Sys2Proof.Machine.execSvlc s
  | .rbsptrail => Sys2Proof.Machine.execRbsptrail s
  | .init initBase initLen => Sys2Proof.Machine.execInit initBase initLen s

end Sys2Proof.Machine
end

