-- ==== Sys2Proof/Machine/Step.lean ====
section
/-! DEFINITION. One step: one command, taken from the client, decoded, executed and answered (30_encoding.md R83, R84).
The block has no program counter and fetches nothing (10_state.md R27). -/

namespace Sys2Proof.Machine

/-- Decode first, then execute; an illegal word is answered and not executed (60_exceptions.md R152). -/
def runCommand (c : Command) (s : State) : Host.Outcome State Fault Refusal :=
  match decode c with
  | .ok i => exec i s
  | .error _ => execIllegal s

/-- One step: the next command of the client, or nothing when the client presents none ("the block never acts on its
own", 60_exceptions.md R160; log entry 2). -/
def step (s : State) : Host.Outcome State Fault Refusal :=
  match s.takeCommand with
  | none => .next s
  | some (c, t) => runCommand c t

/-- `s` with an opcode-table word presented by the client as its next command, both operand inputs 0 (log entry 14). -/
def State.withFetchWord (s : State) (nbits w : Nat) : State :=
  { s with commands := tableCommand nbits w :: s.commands }

end Sys2Proof.Machine
end

