-- ==== Sys2Proof/Machine/Assembler.lean ====
section
/-! DEFINITION. The command sequences a client writes: the assembler line of each command (30_encoding.md R81) and the
fixed expansion of each pseudo-command (R82). Notation of the spec; none of it is known to the block. -/

namespace Sys2Proof.Machine

/-- The line a client writes for a command (30_encoding.md R81). -/
def asmLine : Instr → String
  | .getbits n => "getbits " ++ toString n.toNat
  | .peekbits n => "peekbits " ++ toString n.toNat
  | .skipbits n => "skipbits " ++ toString n.toNat
  | .align => "align"
  | .uvlc => "uvlc"
  | .svlc => "svlc"
  | .rbsptrail => "rbsptrail"
  | .init b l => "init " ++ toString b.toNat ++ ", " ++ toString l.toNat

/-- The commands a pseudo-command stands for (30_encoding.md R82). -/
def expand : Pseudo → List Instr
  | .getbit => [.getbits 1]
  | .getbyte => [.getbits 8]
  | .getbytes k => List.replicate k (.getbits 8)
  | .skipmarker => [.skipbits 1]
  | .skipreserved k => [.skipbits k]
  | .skiplong total => List.replicate (total / 32) (.skipbits 32) ++ [.skipbits (BitVec.ofNat 6 (total % 32))]
  | .getbits64 => [.getbits 32, .getbits 32]

/-- The commands a client presents for a sequence. -/
def program (is : List Instr) : List Command := is.map encode

end Sys2Proof.Machine
end

