-- ==== Sys2Proof/Machine/StreamView.lean ====
section
/-! DEFINITION. The stream view (00_scope.md R10, 10_state.md R36): the buffer as an endless bit sequence, the bit cursor
`pos`, and what each command answers in those terms alone. It is the second level of the model; Laws and obligations
prove the register level against it. -/

namespace Sys2Proof.Machine

/-- Stream bit `S(k)` of the window `[base, base + len)` of `m` (00_scope.md R10): most significant bit of each byte
first, and 0 from bit `8*len` on. -/
def streamBit (m : Memory) (base len k : Nat) : Nat :=
  if k < 8 * len then (m.read (base + k / 8)).toNat / 2 ^ (7 - k % 8) % 2 else 0

/-- `field(p, n)`: the `n`-bit number whose most significant bit is stream bit `p` (00_scope.md R10). -/
def fieldOf (S : Nat → Nat) (p : Nat) : Nat → Nat
  | 0 => 0
  | n + 1 => 2 * fieldOf S p n + S (p + n)

/-- The stream of a state's window. -/
def State.stream (s : State) : Nat → Nat := streamBit s.mem s.base.toNat s.len.toNat

/-- `field(p, n)` of a state's stream. -/
def State.field (s : State) (p n : Nat) : Nat := fieldOf s.stream p n

/-- The bit cursor `pos = 8*off - cnt` (10_state.md R28). -/
def State.pos (s : State) : Nat := 8 * s.off.toNat - s.cnt.toNat

/-- `L = 8*len`: the number of bits of the buffer (10_state.md R28). -/
def State.bitLen (s : State) : Nat := 8 * s.len.toNat

/-! ### The commands in the stream view -/

/-- What a client sees of the state (10_state.md R36). -/
structure View where
  base : Addr
  len : Offset
  pos : Nat
deriving DecidableEq, Repr

/-- A response in the stream view: the value is none where it is unspecified (30_encoding.md R78). -/
structure ViewResponse where
  status : Status
  value : Option Value
deriving DecidableEq, Repr

/-- The least `q` with `p <= q < p + n` and `S(q) = 1`, if there is one. -/
def firstSet (S : Nat → Nat) : Nat → Nat → Option Nat
  | 0, _ => none
  | n + 1, p => if S p = 1 then some p else firstSet S n (p + 1)

/-- `uvlc()` in the stream view (41_golomb.md R111): the value, or none, and the cursor afterwards. -/
def viewUvlc (S : Nat → Nat) (L p : Nat) : Option Nat × Nat :=
  match firstSet S (Config.maxz + 1) p with
  | some q => (some (2 ^ (q - p) - 1 + fieldOf S (q + 1) (q - p)), min (p + 2 * (q - p) + 1) L)
  | none => (none, min (p + Config.maxz + 1) L)

/-- RBSPTRAIL in the stream view (42_trailing_bits.md R126, R127): the result and the cursor afterwards. -/
def viewTrailing (S : Nat → Nat) (L p : Nat) : Bool × Nat :=
  if S p = 0 then (false, min (p + 1) L)
  else
    match firstSet S (L - (p + 1)) (p + 1) with
    | some q => (false, q + 1)
    | none => (true, L)

/-- The answer and the cursor of each command in the stream view (40_fixed_width.md R98, 41_golomb.md R111, R113,
42_trailing_bits.md R127, 43_control.md R135), over the memory `m`. -/
def viewExec (m : Memory) (i : Instr) (v : View) : ViewResponse × View :=
  let S := streamBit m v.base.toNat v.len.toNat
  let L := 8 * v.len.toNat
  match i with
  | .getbits n => (⟨.ok, some (zext32 (fieldOf S v.pos n.toNat))⟩, { v with pos := min (v.pos + n.toNat) L })
  | .peekbits n => (⟨.ok, some (zext32 (fieldOf S v.pos n.toNat))⟩, v)
  | .skipbits n => (⟨.ok, some 0⟩, { v with pos := min (v.pos + n.toNat) L })
  | .align => (⟨.ok, some 0⟩, { v with pos := 8 * ((v.pos + 7) / 8) })
  | .uvlc =>
    match viewUvlc S L v.pos with
    | (some r, p) => (⟨.ok, some (zext32 r)⟩, { v with pos := p })
    | (none, p) => (⟨.golombErr, none⟩, { v with pos := p })
  | .svlc =>
    match viewUvlc S L v.pos with
    | (some r, p) => (⟨.ok, some (sext32 (signedOfUnsigned r))⟩, { v with pos := p })
    | (none, p) => (⟨.golombErr, none⟩, { v with pos := p })
  | .rbsptrail =>
    match viewTrailing S L v.pos with
    | (good, p) => (⟨.ok, some (if good then 1 else 0)⟩, { v with pos := p })
  | .init b l => if WindowFits b l then (⟨.ok, some 0⟩, ⟨b, l, 0⟩) else (⟨.illegal, some 0⟩, v)

/-- What a client sees of a state. -/
def State.view (s : State) : View := ⟨s.base, s.len, s.pos⟩

/-- A response is the one the stream view gives, whatever an unspecified value is. -/
def Response.matches (r : Response) (w : ViewResponse) : Prop :=
  r.status = w.status ∧ ∀ v, w.value = some v → r.value = v

end Sys2Proof.Machine
end

