-- ==== Sys2Proof/Machine/GolombCode.lean ====
section
/-! DEFINITION. The encoders that UVLC and SVLC invert (41_golomb.md R110, R114, R116). They are no part of the block; the
round-trip statements are made with them. -/

namespace Sys2Proof.Machine

/-- `z = floor(log2(v + 1))`: the leading zeros of the code of `v` (41_golomb.md R116). -/
def codeZeros (v : Nat) : Nat := Nat.log2 (v + 1)

/-- The length of the code of `v`, `2z + 1` bits (41_golomb.md R110). -/
def codeLength (v : Nat) : Nat := 2 * codeZeros v + 1

/-- The code of `v` as one number of `codeLength v` bits, first bit most significant: `z` zero bits and then `v + 1` in
`z + 1` bits, so the number is `v + 1` (41_golomb.md R116). -/
def codeNumber (v : Nat) : Nat := v + 1

/-- The stream holds the code of `v` at `p`. -/
def HoldsCode (S : Nat → Nat) (p v : Nat) : Prop := fieldOf S p (codeLength v) = codeNumber v

/-- The unsigned value that stands for a signed one: `k > 0 -> 2k - 1`, `k < 0 -> -2k`, `0 -> 0` (41_golomb.md R114). -/
def unsignedOfSigned (k : Int) : Nat := if 0 < k then (2 * k - 1).toNat else (-2 * k).toNat

end Sys2Proof.Machine
end

