-- ==== Sys2Proof/Safety.lean ====
section
/-! DEFINITION. What counts as a sound state and a safe run: the invariants of 10_state.md R26, the part of the state a
stream command may touch, and when two states look alike to a client (10_state.md R36). -/

namespace Sys2Proof.Machine

/-- The invariants I1 to I7 of 10_state.md R26, and the canonical form of the memory. -/
structure State.Inv (s : State) : Prop where
  /-- I1: `0 <= cnt <= 64`. -/
  cnt_le : s.cnt.toNat ≤ Config.accw
  /-- I2: `0 <= off <= len`. -/
  off_le : s.off.toNat ≤ s.len.toNat
  /-- I3: `cnt <= 8*off`. -/
  cnt_le_off : s.cnt.toNat ≤ 8 * s.off.toNat
  /-- I4: `(pos + cnt) mod 8 = 0`. -/
  byte_end : (s.pos + s.cnt.toNat) % 8 = 0
  /-- I5: `acc = field(pos, cnt) << (64 - cnt)`. -/
  acc_eq : s.acc.toNat = s.field s.pos s.cnt.toNat * 2 ^ (Config.accw - s.cnt.toNat)
  /-- I6: `pos <= 8*len`. -/
  pos_le : s.pos ≤ s.bitLen
  /-- I7: `base + len <= 2^ADDRW`. -/
  window : WindowFits s.base s.len
  /-- The memory is in its canonical form. -/
  mem_wf : s.mem.wf = true

/-- `t` is `s` but for what a command may change by pulling and consuming bits: `off`, `acc`, `cnt` and the record of the
memory port (40_fixed_width.md R94). -/
def State.SameButCursor (s t : State) : Prop :=
  t = { s with off := t.off, acc := t.acc, cnt := t.cnt, reads := t.reads }

/-- `t` is what `s` becomes when a command moves the cursor, gives the response `r` and changes nothing else: the window,
the memory, the commands ahead and the free-value counter are those of `s` (40_fixed_width.md R94). -/
def State.Answered (s t : State) (r : Response) : Prop :=
  t = { s with off := t.off, acc := t.acc, cnt := t.cnt, reads := t.reads, responses := s.responses ++ [r] }

/-- The same for a failed Golomb read, which draws one unspecified value (30_encoding.md R78, 41_golomb.md R112). -/
def State.AnsweredGolombErr (s t : State) : Prop :=
  t = { s with off := t.off, acc := t.acc, cnt := t.cnt, reads := t.reads, draws := s.draws + 1,
               responses := s.responses ++ [⟨.golombErr, Config.golombErrValue s.draws⟩] }

/-- The addresses presented between `s` and `t`, when `off` has moved from `s.off` to `t.off` (20_memory.md R51, R54). -/
def State.ReadOn (s t : State) : Prop :=
  s.off.toNat ≤ t.off.toNat ∧
    t.reads = s.reads ++ (List.range (t.off.toNat - s.off.toNat)).map (s.base.toNat + s.off.toNat + ·)

/-- Two states that look alike to a client (10_state.md R36): the same window over the same memory, the same `pos`, the
same commands ahead, the same responses given and the same next unspecified value. -/
structure State.Alike (s t : State) : Prop where
  view : s.view = t.view
  mem : s.mem = t.mem
  commands : s.commands = t.commands
  responses : s.responses = t.responses
  draws : s.draws = t.draws

/-- A step is safe when it neither faults nor refuses (30_encoding.md R84). -/
def State.Safe (s : State) : Prop := ∃ t, step s = .next t

end Sys2Proof.Machine
end

