-- ==== Sys2Proof/Certificates/Slice0/Obligations.lean ====
section
/-! DEFINITION. The statements for the provers, from the numbered rules of spec/. Each docstring names the rule. -/

open Sys2Proof Sys2Proof.Machine

/-! ### Reset and the invariants -/

/-- 10_state.md R35: every register is 0 after reset, so `pos = 0` and the buffer is empty, and the state is the one
after `INIT` with both operands 0. -/
def Obligations.ResetIsTheEmptyCursor : Prop :=
  State.reset.base = 0 ∧ State.reset.len = 0 ∧ State.reset.off = 0 ∧ State.reset.acc = 0 ∧ State.reset.cnt = 0 ∧
    State.reset.pos = 0 ∧ State.reset.bitLen = 0 ∧
    exec (.init 0 0) State.reset = .next (State.reset.respond .ok 0)

/-- 70_reset_and_hazards.md R171: the invariants hold in the reset state. -/
def Obligations.ResetMeetsInvariants : Prop := State.reset.Inv

/-- 10_state.md R26: the invariants hold after reset and after every command, whatever the command sequence. The
canonical form of the memory, which `State.Inv` also says, is the model's own. -/
def Obligations.StepKeepsInvariants : Prop :=
  State.reset.Inv ∧ ∀ s t : State, s.Inv → step s = .next t → t.Inv

/-- 30_encoding.md R84, 93_implementation_defined.md section 1: from a state that meets the invariants no step faults,
is stuck or refuses. -/
def Obligations.StepFromInvariantsAnswersNext : Prop := ∀ s : State, s.Inv → s.Safe

/-- 70_reset_and_hazards.md R171: a reset discards the cursor just as INIT with both operands 0 does, in every state, and
leaves a state that meets the invariants. -/
def Obligations.ResetDuringParseEqualsInitZero : Prop :=
  ∀ s : State, exec (.init 0 0) s = .next (s.resetBlock.respond .ok 0) ∧ (s.mem.wf = true → s.resetBlock.Inv)

/-! ### Decoding and the step -/

/-- 30_encoding.md R83, R84: a step takes the client's next command, decodes it and executes it from the state without
it. -/
def Obligations.StepRunsDecodedCommand : Prop :=
  ∀ (s : State) (c : Command) (rest : List Command) (i : Instr),
    s.commands = c :: rest → decode c = .ok i → step s = exec i { s with commands := rest }

/-- The model's choice (log entry 2, read from 60_exceptions.md R160, "The block never acts on its own"): with no command
presented a step changes nothing. -/
def Obligations.StepWithoutCommandChangesNothing : Prop := ∀ s : State, s.commands = [] → step s = .next s

/-- 30_encoding.md R75: an illegal word (opcode 0 or 9 to 15; reserved bits set; a bit count over 32; an operand where
there is none) changes no register, reads no memory and is answered `(ILLEGAL, 0)`. -/
def Obligations.IllegalWordIsAnsweredAndChangesNothing : Prop :=
  ∀ (s : State) (c : Command) (rest : List Command), s.commands = c :: rest →
    (rsvField c.word ≠ 0 ∨ opField c.word = 0 ∨ 9 ≤ (opField c.word).toNat ∨
      (1 ≤ (opField c.word).toNat ∧ (opField c.word).toNat ≤ 3 ∧ 32 < (nField c.word).toNat) ∨
      (4 ≤ (opField c.word).toNat ∧ (opField c.word).toNat ≤ 8 ∧ nField c.word ≠ 0)) →
    step s = .next { s with commands := rest, responses := s.responses ++ [⟨.illegal, 0⟩] }

/-- 30_encoding.md R74: each row of the table of legal words, and nothing else, decodes to its command; INIT alone looks
at the operand inputs (R73). -/
def Obligations.DecodeReadsExactlyTheTable : Prop :=
  ∀ c : Command,
    (∀ n, decode c = .ok (.getbits n) ↔ c.word.toNat = 0x1000 + n.toNat ∧ n.toNat ≤ 32) ∧
    (∀ n, decode c = .ok (.peekbits n) ↔ c.word.toNat = 0x2000 + n.toNat ∧ n.toNat ≤ 32) ∧
    (∀ n, decode c = .ok (.skipbits n) ↔ c.word.toNat = 0x3000 + n.toNat ∧ n.toNat ≤ 32) ∧
    (decode c = .ok .align ↔ c.word = 0x4000) ∧
    (decode c = .ok .uvlc ↔ c.word = 0x5000) ∧
    (decode c = .ok .svlc ↔ c.word = 0x6000) ∧
    (decode c = .ok .rbsptrail ↔ c.word = 0x7000) ∧
    (∀ b l, decode c = .ok (.init b l) ↔ c.word = 0x8000 ∧ b = c.initBase ∧ l = c.initLen)

/-- 30_encoding.md R71, R74: decoding the encoding of a command gives it back, with every operand the encoding admits. -/
def Obligations.EncodeThenDecodeIsIdentity : Prop := ∀ i : Instr, i.WellFormed → decode (encode i) = .ok i

/-- 30_encoding.md R74: a word that decodes is the word of the command it decodes to, and that command is well formed. -/
def Obligations.DecodeThenEncodeGivesTheWord : Prop :=
  ∀ (c : Command) (i : Instr), decode c = .ok i → (encode i).word = c.word ∧ i.WellFormed

/-- 30_encoding.md R71: words written out bit by bit. -/
def Obligations.WordsWrittenOutDecode : Prop :=
  decode ⟨0b0001000000000100, 7, 9⟩ = .ok (.getbits 4) ∧ decode ⟨0b0010000000100000, 7, 9⟩ = .ok (.peekbits 32) ∧
    decode ⟨0b0011000000000011, 7, 9⟩ = .ok (.skipbits 3) ∧ decode ⟨0b0110000000000000, 7, 9⟩ = .ok .svlc ∧
    decode ⟨0b0111000000000000, 7, 9⟩ = .ok .rbsptrail ∧ decode ⟨0b1000000000000000, 7, 9⟩ = .ok (.init 7 9)

/-- 30_encoding.md R77: the status codes are 0, 1 and 3, and code 2 is never produced. -/
def Obligations.StatusCodesLeaveTwoUnused : Prop :=
  Status.ok.code = 0 ∧ Status.golombErr.code = 1 ∧ Status.illegal.code = 3 ∧ ∀ st : Status, st.code ≠ 2

/-! ### Fixed-width commands -/

/-- 40_fixed_width.md R94, R98: GETBITS n answers the next `n` stream bits as a number and moves the cursor to
`min(pos + n, 8*len)`; nothing else changes, and the bytes read are the next ones in order. -/
def Obligations.GetbitsReadsAndConsumes : Prop :=
  ∀ (s : State) (n : BitCount), s.Inv → n.toNat ≤ 32 →
    ∃ t, exec (.getbits n) s = .next t ∧ s.Answered t ⟨.ok, BitVec.ofNat 32 (s.field s.pos n.toNat)⟩ ∧
      t.pos = min (s.pos + n.toNat) (8 * s.len.toNat) ∧ s.ReadOn t ∧ t.Inv

/-- 40_fixed_width.md R95, R98: PEEKBITS n answers what GETBITS n would and leaves the cursor where it is; nothing else
but the read-ahead changes. -/
def Obligations.PeekbitsReadsWithoutConsuming : Prop :=
  ∀ (s : State) (n : BitCount), s.Inv → n.toNat ≤ 32 →
    ∃ t, exec (.peekbits n) s = .next t ∧ s.Answered t ⟨.ok, BitVec.ofNat 32 (s.field s.pos n.toNat)⟩ ∧
      t.pos = s.pos ∧ s.ReadOn t ∧ t.Inv

/-- 40_fixed_width.md R96, R98: SKIPBITS n has the register and memory effects of GETBITS n and answers 0. -/
def Obligations.SkipbitsConsumesLikeGetbits : Prop :=
  ∀ (s : State) (n : BitCount), s.Inv → n.toNat ≤ 32 →
    ∃ t u, exec (.skipbits n) s = .next t ∧ exec (.getbits n) s = .next u ∧ s.Answered t ⟨.ok, 0⟩ ∧
      t.off = u.off ∧ t.acc = u.acc ∧ t.cnt = u.cnt ∧ t.reads = u.reads ∧
      t.pos = min (s.pos + n.toNat) (8 * s.len.toNat)

/-- 40_fixed_width.md R97: ALIGN drops `cnt mod 8` bits in every state, reads nothing and never changes `off`; under the
invariants the cursor moves up to the next multiple of 8, never beyond `8*len`, and a second ALIGN changes nothing. -/
def Obligations.AlignMovesToByteBoundary : Prop :=
  ∀ s : State,
    exec .align s = .next { s with
      acc := s.acc <<< (s.cnt.toNat % 8)
      cnt := BitVec.ofNat 7 (s.cnt.toNat - s.cnt.toNat % 8)
      responses := s.responses ++ [⟨.ok, 0⟩] } ∧
    ∀ t, exec .align s = .next t →
      exec .align t = .next { t with responses := t.responses ++ [⟨.ok, 0⟩] } ∧
      (s.Inv → t.pos = 8 * ((s.pos + 7) / 8) ∧ t.pos ≤ 8 * s.len.toNat ∧ t.pos = s.pos + (8 - s.pos % 8) % 8)

/-- 30_encoding.md R72, R75 (log entry 12): a bit count of 33 to 63 is answered `(ILLEGAL, 0)` and changes nothing, in
every state. -/
def Obligations.CountAboveThirtyTwoIsIllegal : Prop :=
  ∀ (s : State) (n : BitCount), 32 < n.toNat →
    exec (.getbits n) s = .next { s with responses := s.responses ++ [⟨.illegal, 0⟩] } ∧
    exec (.peekbits n) s = .next { s with responses := s.responses ++ [⟨.illegal, 0⟩] } ∧
    exec (.skipbits n) s = .next { s with responses := s.responses ++ [⟨.illegal, 0⟩] }

/-- 20_memory.md R52, 40_fixed_width.md R92, R93: with `n` bits already buffered the fixed-width commands read no memory:
the value is the top `n` bits of `acc`, and GETBITS and SKIPBITS shift them out. In every state. -/
def Obligations.BufferedReadsTouchNoMemory : Prop :=
  ∀ (s : State) (n : BitCount), n.toNat ≤ 32 → n.toNat ≤ s.cnt.toNat →
    exec (.getbits n) s = .next { s with
      acc := s.acc <<< n.toNat, cnt := BitVec.ofNat 7 (s.cnt.toNat - n.toNat)
      responses := s.responses ++ [⟨.ok, BitVec.ofNat 32 (s.acc.toNat / 2 ^ (64 - n.toNat))⟩] } ∧
    exec (.peekbits n) s = .next { s with
      responses := s.responses ++ [⟨.ok, BitVec.ofNat 32 (s.acc.toNat / 2 ^ (64 - n.toNat))⟩] } ∧
    exec (.skipbits n) s = .next { s with
      acc := s.acc <<< n.toNat, cnt := BitVec.ofNat 7 (s.cnt.toNat - n.toNat)
      responses := s.responses ++ [⟨.ok, 0⟩] }

/-- 40_fixed_width.md R90, R91, 70_reset_and_hazards.md R174: a request that finds too few bits buffered pulls
`min(len - off, floor((64 - cnt) / 8))` bytes, whatever its `n`, one byte at each of the addresses from `base + off`
on; afterwards 57 bits are buffered or the buffer has ended. PEEKBITS shows it, and GETBITS pulls the same bytes. -/
def Obligations.ShortRequestPullsWholeBytes : Prop :=
  ∀ (s : State) (n : BitCount), s.Inv → n.toNat ≤ 32 → s.cnt.toNat < n.toNat →
    ∃ t, exec (.peekbits n) s = .next t ∧
      t.off.toNat = s.off.toNat + min (s.len.toNat - s.off.toNat) ((64 - s.cnt.toNat) / 8) ∧
      t.cnt.toNat = s.cnt.toNat + 8 * min (s.len.toNat - s.off.toNat) ((64 - s.cnt.toNat) / 8) ∧
      t.reads = s.reads ++ (List.range (min (s.len.toNat - s.off.toNat) ((64 - s.cnt.toNat) / 8))).map
        (s.base.toNat + s.off.toNat + ·) ∧
      (57 ≤ t.cnt.toNat ∨ t.off = t.len) ∧
      ∃ u, exec (.getbits n) s = .next u ∧ u.off = t.off ∧ u.reads = t.reads

/-- 40_fixed_width.md R98 (a), (b), 20_memory.md R56: GETBITS a and then GETBITS b return `x` and `y` with
`(x << b) | y` what one GETBITS (a + b) would have returned, and reach the same cursor, across the end of the buffer
too. -/
def Obligations.ConsecutiveReadsConcatenate : Prop :=
  ∀ (s : State) (a b : BitCount), s.Inv → a.toNat + b.toNat ≤ 32 →
    ∃ t u w x y, exec (.getbits a) s = .next t ∧ t.responses = s.responses ++ [⟨.ok, x⟩] ∧
      exec (.getbits b) t = .next u ∧ u.responses = t.responses ++ [⟨.ok, y⟩] ∧
      exec (.getbits (a + b)) s = .next w ∧ w.responses = s.responses ++ [⟨.ok, x <<< b.toNat ||| y⟩] ∧
      u.pos = w.pos

/-- 40_fixed_width.md R95: PEEKBITS n and then GETBITS n return the same value twice, and a second PEEKBITS n returns it
again and changes no register. -/
def Obligations.PeekThenGetReturnTheSameValue : Prop :=
  ∀ (s : State) (n : BitCount), s.Inv → n.toNat ≤ 32 →
    ∃ t u v, exec (.peekbits n) s = .next t ∧ t.responses = s.responses ++ [⟨.ok, v⟩] ∧
      exec (.getbits n) t = .next u ∧ u.responses = t.responses ++ [⟨.ok, v⟩] ∧
      exec (.peekbits n) t = .next { t with responses := t.responses ++ [⟨.ok, v⟩] }

/-- 40_fixed_width.md R98 (c), 20_memory.md R55: GETBITS 8 at a byte boundary inside the buffer returns the byte. -/
def Obligations.AlignedByteReadReturnsTheByte : Prop :=
  ∀ s : State, s.Inv → s.pos % 8 = 0 → s.pos < 8 * s.len.toNat →
    ∃ t, exec (.getbits 8) s = .next t ∧
      t.responses = s.responses ++ [⟨.ok, (s.mem.read (s.base.toNat + s.pos / 8)).setWidth 32⟩] ∧ t.pos = s.pos + 8

/-- 40_fixed_width.md R99, 43_control.md R137: once `pos = 8*len` the state is `off = len`, `cnt = 0`, `acc = 0`, and
every command but INIT leaves it so and reads nothing: GETBITS and PEEKBITS answer 0, SKIPBITS and ALIGN do nothing, UVLC
and SVLC answer `GOLOMB_ERR`, RBSPTRAIL answers 0. -/
def Obligations.EndOfBufferAnswersAndStays : Prop :=
  ∀ s : State, s.Inv → s.pos = 8 * s.len.toNat →
    s.off = s.len ∧ s.cnt = 0 ∧ s.acc = 0 ∧
    (∀ n : BitCount, n.toNat ≤ 32 →
      exec (.getbits n) s = .next (s.respond .ok 0) ∧ exec (.peekbits n) s = .next (s.respond .ok 0) ∧
      exec (.skipbits n) s = .next (s.respond .ok 0)) ∧
    exec .align s = .next (s.respond .ok 0) ∧
    exec .uvlc s = .next s.respondGolombErr ∧ exec .svlc s = .next s.respondGolombErr ∧
    exec .rbsptrail s = .next (s.respond .ok 0)

/-! ### Golomb commands -/

/-- 41_golomb.md R111: with `z <= 20` zero bits before the first set bit, UVLC answers `2^z - 1` plus the next `z` bits
and moves the cursor to `min(pos + 2z + 1, 8*len)`. -/
def Obligations.UvlcDecodesOneCode : Prop :=
  ∀ (s : State) (z : Nat), s.Inv → z ≤ 20 → (∀ k, k < z → s.stream (s.pos + k) = 0) → s.stream (s.pos + z) = 1 →
    ∃ t, exec .uvlc s = .next t ∧
      s.Answered t ⟨.ok, BitVec.ofNat 32 (2 ^ z - 1 + s.field (s.pos + z + 1) z)⟩ ∧
      t.pos = min (s.pos + 2 * z + 1) (8 * s.len.toNat) ∧ s.ReadOn t ∧ t.Inv

/-- 41_golomb.md R112: with 21 zero bits at the cursor UVLC answers `GOLOMB_ERR` with a free value and stands 21 bits
further, or at the end of the buffer. -/
def Obligations.UvlcReportsGolombErr : Prop :=
  ∀ s : State, s.Inv → (∀ k, k < 21 → s.stream (s.pos + k) = 0) →
    ∃ t, exec .uvlc s = .next t ∧ s.AnsweredGolombErr t ∧ t.pos = min (s.pos + 21) (8 * s.len.toNat) ∧
      s.ReadOn t ∧ t.Inv

/-- 41_golomb.md R113: SVLC reads the code UVLC would and answers its signed value: 0 for 0, `-(v div 2)` for an even
`v`, `(v + 1) div 2` for an odd one, in 32-bit two's complement. -/
def Obligations.SvlcDecodesOneCode : Prop :=
  ∀ (s : State) (z v : Nat), s.Inv → z ≤ 20 → (∀ k, k < z → s.stream (s.pos + k) = 0) → s.stream (s.pos + z) = 1 →
    v = 2 ^ z - 1 + s.field (s.pos + z + 1) z →
    ∃ t, exec .svlc s = .next t ∧
      s.Answered t ⟨.ok, if v % 2 = 0 then -BitVec.ofNat 32 (v / 2) else BitVec.ofNat 32 ((v + 1) / 2)⟩ ∧
      t.pos = min (s.pos + 2 * z + 1) (8 * s.len.toNat) ∧ s.ReadOn t ∧ t.Inv

/-- 41_golomb.md R112, R113: SVLC propagates the error, with the same state afterwards. That the two commands deliver the
same unspecified value is the model's choice (log entry 5). -/
def Obligations.SvlcReportsGolombErr : Prop :=
  ∀ s : State, s.Inv → (∀ k, k < 21 → s.stream (s.pos + k) = 0) →
    ∃ t, exec .svlc s = .next t ∧ exec .uvlc s = .next t ∧ s.AnsweredGolombErr t

/-- 41_golomb.md R113: in every state, the register and memory effects of SVLC are exactly those of UVLC, the status is
the same, and the value of an `OK` response is the signed one of UVLC's. That the two deliver the same value with
`GOLOMB_ERR` is the model's choice (log entry 5): 30_encoding.md R78 leaves both values open. -/
def Obligations.SvlcHasTheEffectsOfUvlc : Prop :=
  ∀ s t : State, exec .uvlc s = .next t →
    ∃ r, t.responses = s.responses ++ [r] ∧
      ((r.status = .ok ∧ exec .svlc s = .next { t with
          responses := s.responses ++ [⟨.ok, BitVec.ofInt 32 (signedOfUnsigned r.value.toNat)⟩] }) ∨
        (r.status = .golombErr ∧ exec .svlc s = .next t))

/-- 41_golomb.md R115: a value UVLC answers with `OK` is at most 2097150, and one SVLC answers lies between -1048575 and
1048575. In every state. -/
def Obligations.GolombValuesStayInRange : Prop :=
  ∀ s : State,
    (∀ t v, exec .uvlc s = .next t → t.responses = s.responses ++ [⟨.ok, v⟩] → v.toNat ≤ 2097150) ∧
    (∀ t v, exec .svlc s = .next t → t.responses = s.responses ++ [⟨.ok, v⟩] →
      -1048575 ≤ v.toInt ∧ v.toInt ≤ 1048575)

/-- 41_golomb.md R114: the mapping of SVLC is `(-1)^(v+1) * ceil(v / 2)` for `v >= 1`; it is injective, and `2k - 1`,
`-2k`, `0` for `k` positive, negative, zero is its inverse. -/
def Obligations.SignedMappingIsTheZigzag : Prop :=
  (∀ v : Nat, 1 ≤ v → signedOfUnsigned v = (-1) ^ (v + 1) * (((v + 1) / 2 : Nat) : Int)) ∧
    (∀ v w : Nat, signedOfUnsigned v = signedOfUnsigned w → v = w) ∧
    (∀ k : Int, 0 < k → signedOfUnsigned (2 * k - 1).toNat = k) ∧
    (∀ k : Int, k < 0 → signedOfUnsigned (-2 * k).toNat = k) ∧ signedOfUnsigned 0 = 0

/-- 41_golomb.md R116: where the buffer holds the code of `v` at the cursor (`v + 1` in binary in `z + 1` bits, preceded
by `z` zeros, `z = floor(log2(v + 1))`), UVLC returns `v` and consumes exactly `2z + 1` bits. -/
def Obligations.UvlcInvertsTheEncoder : Prop :=
  ∀ (s : State) (v : Nat), s.Inv → v ≤ 2097150 → HoldsCode s.stream s.pos v →
    s.pos + codeLength v ≤ 8 * s.len.toNat →
    ∃ t, exec .uvlc s = .next t ∧ s.Answered t ⟨.ok, BitVec.ofNat 32 v⟩ ∧ t.pos = s.pos + codeLength v

/-- 41_golomb.md R116: where the buffer holds the signed code of `k` at the cursor, SVLC returns `k` and consumes exactly
its bits. -/
def Obligations.SvlcInvertsTheEncoder : Prop :=
  ∀ (s : State) (k : Int), s.Inv → -1048575 ≤ k → k ≤ 1048575 → HoldsCode s.stream s.pos (unsignedOfSigned k) →
    s.pos + codeLength (unsignedOfSigned k) ≤ 8 * s.len.toNat →
    ∃ t v, exec .svlc s = .next t ∧ s.Answered t ⟨.ok, v⟩ ∧ v.toInt = k ∧
      t.pos = s.pos + codeLength (unsignedOfSigned k)

/-! ### Trailing bits -/

/-- 42_trailing_bits.md R127, R126: RBSPTRAIL answers `(OK, 1)` exactly if the cursor is inside the buffer, its bit is 1
and every later bit of the buffer is 0, else `(OK, 0)`. The cursor is then at the end; one bit on, if the stop bit was 0;
one past the first set bit after the stop bit, if there was one. -/
def Obligations.TrailingCheckAcceptsStopBitThenZeros : Prop :=
  ∀ s : State, s.Inv →
    ∃ t v, exec .rbsptrail s = .next t ∧ s.Answered t ⟨.ok, v⟩ ∧ s.ReadOn t ∧ t.Inv ∧ (v = 0 ∨ v = 1) ∧
      (v = 1 ↔ s.pos < 8 * s.len.toNat ∧ s.stream s.pos = 1 ∧
        ∀ k, s.pos < k → k < 8 * s.len.toNat → s.stream k = 0) ∧
      (v = 1 → t.pos = 8 * s.len.toNat) ∧
      (s.stream s.pos = 0 → t.pos = min (s.pos + 1) (8 * s.len.toNat)) ∧
      (∀ q, s.stream s.pos = 1 → s.pos < q → s.stream q = 1 → (∀ k, s.pos < k → k < q → s.stream k = 0) →
        t.pos = q + 1)

/-! ### INIT -/

/-- 43_control.md R135: INIT over a window that fits the address space sets `base` and `len`, clears `off`, `acc` and
`cnt`, reads no memory and answers `(OK, 0)`; over any other window it changes nothing and answers `(ILLEGAL, 0)`. The
stream is then that of the new window, from its first bit. In every state. -/
def Obligations.InitStartsAFreshCursorOrRefuses : Prop :=
  ∀ (s : State) (b : Addr) (l : Offset),
    (b.toNat + l.toNat ≤ 2 ^ 32 → ∃ t, exec (.init b l) s = .next t ∧
      t = { s with base := b, len := l, off := 0, acc := 0, cnt := 0, responses := s.responses ++ [⟨.ok, 0⟩] } ∧
      t.pos = 0 ∧ t.stream = streamBit s.mem b.toNat l.toNat) ∧
    (2 ^ 32 < b.toNat + l.toNat →
      exec (.init b l) s = .next { s with responses := s.responses ++ [⟨.illegal, 0⟩] })

/-- 10_state.md R21, R22: no command other than INIT writes `base` or `len`. -/
def Obligations.OnlyInitMovesTheWindow : Prop :=
  ∀ (i : Instr) (s t : State), exec i s = .next t → (∀ b l, i ≠ .init b l) → t.base = s.base ∧ t.len = s.len

/-! ### Frames -/

/-- 40_fixed_width.md R94 to R96, in every state and for every bit count: GETBITS, PEEKBITS and SKIPBITS change `off`,
`acc` and `cnt` alone of the registers, no byte of memory, no command ahead and no free value, and give one response. -/
def Obligations.FixedWidthFrame : Prop :=
  ∀ (n : BitCount) (i : Instr) (s t : State), i = .getbits n ∨ i = .peekbits n ∨ i = .skipbits n → exec i s = .next t →
    (∃ r, s.Answered t r) ∧ s.ReadOn t ∧ ∀ a, t.mem.read a = s.mem.read a

/-- 41_golomb.md R111 to R113, in every state: UVLC and SVLC change `off`, `acc` and `cnt` alone of the registers, no
byte of memory and no command ahead; they give one response, and draw a free value only with a failed read. -/
def Obligations.GolombFrame : Prop :=
  ∀ (i : Instr) (s t : State), i = .uvlc ∨ i = .svlc → exec i s = .next t →
    ((∃ v, s.Answered t ⟨.ok, v⟩) ∨ s.AnsweredGolombErr t) ∧ s.ReadOn t ∧ ∀ a, t.mem.read a = s.mem.read a

/-- 42_trailing_bits.md R125, in every state: RBSPTRAIL changes `off`, `acc` and `cnt` alone of the registers, no byte of
memory, no command ahead and no free value, and answers `(OK, 0)` or `(OK, 1)`. -/
def Obligations.TrailingFrame : Prop :=
  ∀ s t : State, exec .rbsptrail s = .next t →
    (s.Answered t ⟨.ok, 0⟩ ∨ s.Answered t ⟨.ok, 1⟩) ∧ s.ReadOn t ∧ ∀ a, t.mem.read a = s.mem.read a

/-- 40_fixed_width.md R97, 43_control.md R135, in every state: ALIGN and INIT read no memory, change no byte of it, no
command ahead and no free value, and give one response; ALIGN leaves `base`, `len` and `off` alone. -/
def Obligations.AlignAndInitFrame : Prop :=
  ∀ (i : Instr) (s t : State), i = .align ∨ (∃ b l, i = .init b l) → exec i s = .next t →
    t.reads = s.reads ∧ (∀ a, t.mem.read a = s.mem.read a) ∧ t.mem = s.mem ∧ t.commands = s.commands ∧
      t.draws = s.draws ∧ (∃ r, t.responses = s.responses ++ [r]) ∧
      (i = .align → t.base = s.base ∧ t.len = s.len ∧ t.off = s.off)

/-- 20_memory.md R53: no command writes memory: no step changes any byte. -/
def Obligations.NoStepWritesMemory : Prop :=
  ∀ s t : State, step s = .next t → t.mem = s.mem ∧ ∀ a, t.mem.read a = s.mem.read a

/-- 30_encoding.md R76: every command, legal or not, is answered by exactly one response. -/
def Obligations.EveryCommandGetsOneResponse : Prop :=
  ∀ (s : State) (c : Command) (rest : List Command), s.commands = c :: rest →
    (∀ t, step s = .next t → t.commands = rest ∧ ∃ r, t.responses = s.responses ++ [r]) ∧
    (s.Inv → ∃ t, step s = .next t)

/-- 60_exceptions.md R145, R146: in every state, `GOLOMB_ERR` comes from UVLC and SVLC alone, and `ILLEGAL` from a legal
word only when INIT refuses its window, with the state unchanged. -/
def Obligations.ErrorStatusesComeFromTheirCommandsAlone : Prop :=
  ∀ (i : Instr) (s t : State) (r : Response), i.WellFormed → exec i s = .next t → t.responses = s.responses ++ [r] →
    (r.status = .golombErr → i = .uvlc ∨ i = .svlc) ∧
    (r.status = .illegal → (∃ b l, i = .init b l ∧ 2 ^ 32 < b.toNat + l.toNat) ∧
      r.value = 0 ∧ t = { s with responses := t.responses })

/-! ### Memory reads -/

/-- 20_memory.md R51: the only addresses a command presents lie in the window `[base, base + len)`, so none when `len` is
0; under the invariants they lie in the address space. In every state. -/
def Obligations.ReadsStayInsideTheWindow : Prop :=
  ∀ (i : Instr) (s t : State), exec i s = .next t →
    ∃ addrs, t.reads = s.reads ++ addrs ∧
      ∀ a ∈ addrs, s.base.toNat ≤ a ∧ a < s.base.toNat + s.len.toNat ∧ (s.Inv → a < 2 ^ 32)

/-- 20_memory.md R54: between two INITs the bytes are read in strictly ascending address order, each at most once, with
no gaps: after any number of steps whose commands are not INIT, the addresses read are `base + off` and on, one for each
byte by which `off` has moved. In every state. -/
def Obligations.ReadsBetweenInitsAreConsecutive : Prop :=
  ∀ (k : Nat) (s t : State), (∀ c ∈ s.commands, ∀ b l, decode c ≠ .ok (.init b l)) →
    Sys2Proof.core.run k s = .next t →
    s.off.toNat ≤ t.off.toNat ∧
      t.reads = s.reads ++ (List.range (t.off.toNat - s.off.toNat)).map (s.base.toNat + s.off.toNat + ·)

/-- 70_reset_and_hazards.md R182: the bytes one command reads: at most 8 for GETBITS, PEEKBITS, SKIPBITS, UVLC and SVLC,
none for ALIGN and INIT, at most those that remain for RBSPTRAIL, and all of them when its result is 1. -/
def Obligations.BytesReadAreBounded : Prop :=
  ∀ (i : Instr) (s t : State), s.Inv → exec i s = .next t →
    (i ≠ .rbsptrail → t.reads.length ≤ s.reads.length + 8) ∧
    (i = .align ∨ (∃ b l, i = .init b l) → t.reads = s.reads) ∧
    (i = .rbsptrail → t.reads.length ≤ s.reads.length + (s.len.toNat - s.off.toNat) ∧
      (t.responses = s.responses ++ [⟨.ok, 1⟩] →
        t.reads.length = s.reads.length + (s.len.toNat - s.off.toNat)))

/-- 20_memory.md R51, R60, 10_state.md R33: a command depends on the window's bytes not yet pulled alone. In every state,
with any other memory that agrees on `[base + off, base + len)` it gives the same next state but for that memory: a byte
outside the window is never seen, and neither is a change to a byte already pulled. That the two runs deliver the same
value with `GOLOMB_ERR` is the model's choice (log entry 5). -/
def Obligations.OnlyBytesNotYetPulledMatter : Prop :=
  ∀ (i : Instr) (s t : State) (m : Memory),
    (∀ k, s.off.toNat ≤ k → k < s.len.toNat → m.read (s.base.toNat + k) = s.mem.read (s.base.toNat + k)) →
    exec i s = .next t → exec i { s with mem := m } = .next { t with mem := m }

/-! ### The two levels -/

/-- 10_state.md R36, 40_fixed_width.md R98, 41_golomb.md R111, R113, 42_trailing_bits.md R127: every command, executed on
the registers, gives the response and the cursor of the stream view. -/
def Obligations.ExecRefinesTheStreamView : Prop :=
  ∀ (i : Instr) (s : State), s.Inv → i.WellFormed →
    ∃ t r, exec i s = .next t ∧ t.responses = s.responses ++ [r] ∧ r.matches (viewExec s.mem i s.view).1 ∧
      t.view = (viewExec s.mem i s.view).2 ∧ t.mem = s.mem ∧ t.Inv

/-- 10_state.md R36: two states with the same `base`, `len` and `pos` over the same memory, both of which meet the
invariants, answer every command sequence with the same responses and reach states that again agree on `pos`. The
model's choice (log entry 5), and no word of R36: a `GOLOMB_ERR` response carries the same value in both, because both
start with the same `draws` and the value depends on that counter alone; R78 leaves the value open. -/
def Obligations.AlikeStatesAnswerAlike : Prop :=
  ∀ (k : Nat) (s t : State), s.Inv → t.Inv → s.Alike t →
    ∃ s' t', Sys2Proof.core.run k s = .next s' ∧ Sys2Proof.core.run k t = .next t' ∧ s'.Alike t'

/-- 10_state.md R28: no command but INIT moves the bit cursor back, and none moves it beyond `8*len`. -/
def Obligations.CursorMovesForwardAndSaturates : Prop :=
  ∀ (i : Instr) (s t : State), s.Inv → (∀ b l, i ≠ .init b l) → exec i s = .next t →
    s.pos ≤ t.pos ∧ t.pos ≤ 8 * s.len.toNat

/-! ### Pseudo-commands -/

/-- 30_encoding.md R82: `skiplong N` moves the cursor to `min(pos + N, 8*len)`, and each of its commands answers
`(OK, 0)`. -/
def Obligations.SkiplongSkipsAnyDistance : Prop :=
  ∀ (s : State) (total : Nat) (rest : List Command), s.Inv → s.commands = program (expand (.skiplong total)) ++ rest →
    ∃ t, Sys2Proof.core.run (total / 32 + 1) s = .next t ∧ t.commands = rest ∧
      t.pos = min (s.pos + total) (8 * s.len.toNat) ∧
      t.responses = s.responses ++ List.replicate (total / 32 + 1) ⟨.ok, 0⟩

/-- 30_encoding.md R82: `getbytes k` answers the next `k` 8-bit fields of the stream in order. -/
def Obligations.GetbytesReadsConsecutiveBytes : Prop :=
  ∀ (s : State) (k : Nat) (rest : List Command), s.Inv → s.commands = program (expand (.getbytes k)) ++ rest →
    ∃ t, Sys2Proof.core.run k s = .next t ∧ t.commands = rest ∧ t.pos = min (s.pos + 8 * k) (8 * s.len.toNat) ∧
      t.responses = s.responses ++ (List.range k).map fun j => ⟨.ok, BitVec.ofNat 32 (s.field (s.pos + 8 * j) 8)⟩
end

