-- ==== Sys2Proof/Laws/State.lean ====
section
/-! SUPPORT. One lemma for each field and each named update of State, true by definition, so that no later proof unfolds
a record update. -/

namespace Sys2Proof.Machine

variable (s : State)

/-! ### What the widths bound, as numbers (00_scope.md R6) -/

theorem State.base_lt : s.base.toNat < 4294967296 := s.base.isLt
theorem State.len_lt : s.len.toNat < 4294967296 := s.len.isLt
theorem State.off_lt : s.off.toNat < 4294967296 := s.off.isLt
theorem State.acc_lt : s.acc.toNat < 18446744073709551616 := s.acc.isLt
theorem State.cnt_lt : s.cnt.toNat < 128 := s.cnt.isLt

/-! ### respond -/

@[simp] theorem respond_base (st : Status) (v : Value) : (s.respond st v).base = s.base := rfl
@[simp] theorem respond_len (st : Status) (v : Value) : (s.respond st v).len = s.len := rfl
@[simp] theorem respond_off (st : Status) (v : Value) : (s.respond st v).off = s.off := rfl
@[simp] theorem respond_acc (st : Status) (v : Value) : (s.respond st v).acc = s.acc := rfl
@[simp] theorem respond_cnt (st : Status) (v : Value) : (s.respond st v).cnt = s.cnt := rfl
@[simp] theorem respond_mem (st : Status) (v : Value) : (s.respond st v).mem = s.mem := rfl
@[simp] theorem respond_commands (st : Status) (v : Value) : (s.respond st v).commands = s.commands := rfl
@[simp] theorem respond_responses (st : Status) (v : Value) : (s.respond st v).responses = s.responses ++ [⟨st, v⟩] := rfl
@[simp] theorem respond_reads (st : Status) (v : Value) : (s.respond st v).reads = s.reads := rfl
@[simp] theorem respond_draws (st : Status) (v : Value) : (s.respond st v).draws = s.draws := rfl

@[simp] theorem respond_stream (st : Status) (v : Value) : (s.respond st v).stream = s.stream := rfl
@[simp] theorem respond_pos (st : Status) (v : Value) : (s.respond st v).pos = s.pos := rfl
@[simp] theorem respond_bitLen (st : Status) (v : Value) : (s.respond st v).bitLen = s.bitLen := rfl
@[simp] theorem respond_view (st : Status) (v : Value) : (s.respond st v).view = s.view := rfl
@[simp] theorem respond_exhausted (st : Status) (v : Value) : (s.respond st v).exhausted = s.exhausted := rfl

/-! ### respondIllegal -/

@[simp] theorem respondIllegal_base : (s.respondIllegal).base = s.base := rfl
@[simp] theorem respondIllegal_len : (s.respondIllegal).len = s.len := rfl
@[simp] theorem respondIllegal_off : (s.respondIllegal).off = s.off := rfl
@[simp] theorem respondIllegal_acc : (s.respondIllegal).acc = s.acc := rfl
@[simp] theorem respondIllegal_cnt : (s.respondIllegal).cnt = s.cnt := rfl
@[simp] theorem respondIllegal_mem : (s.respondIllegal).mem = s.mem := rfl
@[simp] theorem respondIllegal_commands : (s.respondIllegal).commands = s.commands := rfl
@[simp] theorem respondIllegal_responses : (s.respondIllegal).responses = s.responses ++ [⟨.illegal, 0⟩] := rfl
@[simp] theorem respondIllegal_reads : (s.respondIllegal).reads = s.reads := rfl
@[simp] theorem respondIllegal_draws : (s.respondIllegal).draws = s.draws := rfl

@[simp] theorem respondIllegal_stream : (s.respondIllegal).stream = s.stream := rfl
@[simp] theorem respondIllegal_pos : (s.respondIllegal).pos = s.pos := rfl
@[simp] theorem respondIllegal_bitLen : (s.respondIllegal).bitLen = s.bitLen := rfl
@[simp] theorem respondIllegal_view : (s.respondIllegal).view = s.view := rfl
@[simp] theorem respondIllegal_exhausted : (s.respondIllegal).exhausted = s.exhausted := rfl

/-! ### respondGolombErr -/

@[simp] theorem respondGolombErr_base : (s.respondGolombErr).base = s.base := rfl
@[simp] theorem respondGolombErr_len : (s.respondGolombErr).len = s.len := rfl
@[simp] theorem respondGolombErr_off : (s.respondGolombErr).off = s.off := rfl
@[simp] theorem respondGolombErr_acc : (s.respondGolombErr).acc = s.acc := rfl
@[simp] theorem respondGolombErr_cnt : (s.respondGolombErr).cnt = s.cnt := rfl
@[simp] theorem respondGolombErr_mem : (s.respondGolombErr).mem = s.mem := rfl
@[simp] theorem respondGolombErr_commands : (s.respondGolombErr).commands = s.commands := rfl
@[simp] theorem respondGolombErr_responses : (s.respondGolombErr).responses = s.responses ++ [⟨.golombErr, Config.golombErrValue s.draws⟩] := rfl
@[simp] theorem respondGolombErr_reads : (s.respondGolombErr).reads = s.reads := rfl
@[simp] theorem respondGolombErr_draws : (s.respondGolombErr).draws = s.draws + 1 := rfl

@[simp] theorem respondGolombErr_stream : (s.respondGolombErr).stream = s.stream := rfl
@[simp] theorem respondGolombErr_pos : (s.respondGolombErr).pos = s.pos := rfl
@[simp] theorem respondGolombErr_bitLen : (s.respondGolombErr).bitLen = s.bitLen := rfl
@[simp] theorem respondGolombErr_view : (s.respondGolombErr).view = s.view := rfl
@[simp] theorem respondGolombErr_exhausted : (s.respondGolombErr).exhausted = s.exhausted := rfl

/-! ### accept -/

@[simp] theorem accept_base (b : Byte) : (s.accept b).base = s.base := rfl
@[simp] theorem accept_len (b : Byte) : (s.accept b).len = s.len := rfl
@[simp] theorem accept_off (b : Byte) : (s.accept b).off = s.off + 1 := rfl
@[simp] theorem accept_acc (b : Byte) : (s.accept b).acc = s.acc ||| (b.setWidth Config.accw <<< (Config.fill - s.cnt.toNat)) := rfl
@[simp] theorem accept_cnt (b : Byte) : (s.accept b).cnt = s.cnt + 8 := rfl
@[simp] theorem accept_mem (b : Byte) : (s.accept b).mem = s.mem := rfl
@[simp] theorem accept_commands (b : Byte) : (s.accept b).commands = s.commands := rfl
@[simp] theorem accept_responses (b : Byte) : (s.accept b).responses = s.responses := rfl
@[simp] theorem accept_reads (b : Byte) : (s.accept b).reads = s.reads := rfl
@[simp] theorem accept_draws (b : Byte) : (s.accept b).draws = s.draws := rfl

@[simp] theorem accept_stream (b : Byte) : (s.accept b).stream = s.stream := rfl
@[simp] theorem accept_bitLen (b : Byte) : (s.accept b).bitLen = s.bitLen := rfl

/-! ### consume -/

@[simp] theorem consume_base (n : Nat) : (s.consume n).base = s.base := rfl
@[simp] theorem consume_len (n : Nat) : (s.consume n).len = s.len := rfl
@[simp] theorem consume_off (n : Nat) : (s.consume n).off = s.off := rfl
@[simp] theorem consume_acc (n : Nat) : (s.consume n).acc = s.acc <<< n := rfl
@[simp] theorem consume_cnt (n : Nat) : (s.consume n).cnt = BitVec.ofNat 7 (s.cnt.toNat - min n s.cnt.toNat) := rfl
@[simp] theorem consume_mem (n : Nat) : (s.consume n).mem = s.mem := rfl
@[simp] theorem consume_commands (n : Nat) : (s.consume n).commands = s.commands := rfl
@[simp] theorem consume_responses (n : Nat) : (s.consume n).responses = s.responses := rfl
@[simp] theorem consume_reads (n : Nat) : (s.consume n).reads = s.reads := rfl
@[simp] theorem consume_draws (n : Nat) : (s.consume n).draws = s.draws := rfl

@[simp] theorem consume_stream (n : Nat) : (s.consume n).stream = s.stream := rfl
@[simp] theorem consume_bitLen (n : Nat) : (s.consume n).bitLen = s.bitLen := rfl

/-! ### installCursor -/

@[simp] theorem installCursor_base (b : Addr) (l : Offset) : (s.installCursor b l).base = b := rfl
@[simp] theorem installCursor_len (b : Addr) (l : Offset) : (s.installCursor b l).len = l := rfl
@[simp] theorem installCursor_off (b : Addr) (l : Offset) : (s.installCursor b l).off = 0 := rfl
@[simp] theorem installCursor_acc (b : Addr) (l : Offset) : (s.installCursor b l).acc = 0 := rfl
@[simp] theorem installCursor_cnt (b : Addr) (l : Offset) : (s.installCursor b l).cnt = 0 := rfl
@[simp] theorem installCursor_mem (b : Addr) (l : Offset) : (s.installCursor b l).mem = s.mem := rfl
@[simp] theorem installCursor_commands (b : Addr) (l : Offset) : (s.installCursor b l).commands = s.commands := rfl
@[simp] theorem installCursor_responses (b : Addr) (l : Offset) : (s.installCursor b l).responses = s.responses := rfl
@[simp] theorem installCursor_reads (b : Addr) (l : Offset) : (s.installCursor b l).reads = s.reads := rfl
@[simp] theorem installCursor_draws (b : Addr) (l : Offset) : (s.installCursor b l).draws = s.draws := rfl

/-! ### resetBlock -/

@[simp] theorem resetBlock_base : (s.resetBlock).base = 0 := rfl
@[simp] theorem resetBlock_len : (s.resetBlock).len = 0 := rfl
@[simp] theorem resetBlock_off : (s.resetBlock).off = 0 := rfl
@[simp] theorem resetBlock_acc : (s.resetBlock).acc = 0 := rfl
@[simp] theorem resetBlock_cnt : (s.resetBlock).cnt = 0 := rfl
@[simp] theorem resetBlock_mem : (s.resetBlock).mem = s.mem := rfl
@[simp] theorem resetBlock_commands : (s.resetBlock).commands = s.commands := rfl
@[simp] theorem resetBlock_responses : (s.resetBlock).responses = s.responses := rfl
@[simp] theorem resetBlock_reads : (s.resetBlock).reads = s.reads := rfl
@[simp] theorem resetBlock_draws : (s.resetBlock).draws = s.draws := rfl

/-! ### hostWrite -/

@[simp] theorem hostWrite_base (a : Addr) (v : Byte) : (s.hostWrite a v).base = s.base := rfl
@[simp] theorem hostWrite_len (a : Addr) (v : Byte) : (s.hostWrite a v).len = s.len := rfl
@[simp] theorem hostWrite_off (a : Addr) (v : Byte) : (s.hostWrite a v).off = s.off := rfl
@[simp] theorem hostWrite_acc (a : Addr) (v : Byte) : (s.hostWrite a v).acc = s.acc := rfl
@[simp] theorem hostWrite_cnt (a : Addr) (v : Byte) : (s.hostWrite a v).cnt = s.cnt := rfl
@[simp] theorem hostWrite_mem (a : Addr) (v : Byte) : (s.hostWrite a v).mem = s.mem.write a.toNat v := rfl
@[simp] theorem hostWrite_commands (a : Addr) (v : Byte) : (s.hostWrite a v).commands = s.commands := rfl
@[simp] theorem hostWrite_responses (a : Addr) (v : Byte) : (s.hostWrite a v).responses = s.responses := rfl
@[simp] theorem hostWrite_reads (a : Addr) (v : Byte) : (s.hostWrite a v).reads = s.reads := rfl
@[simp] theorem hostWrite_draws (a : Addr) (v : Byte) : (s.hostWrite a v).draws = s.draws := rfl

/-! ### withFetchWord -/

@[simp] theorem withFetchWord_base (nbits w : Nat) : (s.withFetchWord nbits w).base = s.base := rfl
@[simp] theorem withFetchWord_len (nbits w : Nat) : (s.withFetchWord nbits w).len = s.len := rfl
@[simp] theorem withFetchWord_off (nbits w : Nat) : (s.withFetchWord nbits w).off = s.off := rfl
@[simp] theorem withFetchWord_acc (nbits w : Nat) : (s.withFetchWord nbits w).acc = s.acc := rfl
@[simp] theorem withFetchWord_cnt (nbits w : Nat) : (s.withFetchWord nbits w).cnt = s.cnt := rfl
@[simp] theorem withFetchWord_mem (nbits w : Nat) : (s.withFetchWord nbits w).mem = s.mem := rfl
@[simp] theorem withFetchWord_commands (nbits w : Nat) : (s.withFetchWord nbits w).commands = tableCommand nbits w :: s.commands := rfl
@[simp] theorem withFetchWord_responses (nbits w : Nat) : (s.withFetchWord nbits w).responses = s.responses := rfl
@[simp] theorem withFetchWord_reads (nbits w : Nat) : (s.withFetchWord nbits w).reads = s.reads := rfl
@[simp] theorem withFetchWord_draws (nbits w : Nat) : (s.withFetchWord nbits w).draws = s.draws := rfl

end Sys2Proof.Machine
end

