-- ==== Sys2Proof/Laws/Memory.lean ====
section
/-! SUPPORT. The buffer memory: a write reads back and leaves every other address alone, it keeps the canonical form, and
canonical memories that read alike are equal. -/

namespace Sys2Proof.Machine

/-- Below the first listed address nothing is listed. -/
theorem Memory.read_of_lt {lo k : Nat} {m : Memory} (h : m.wfFrom lo = true) (hk : k < lo) :
    m.read k = unlistedByte := by
  induction m generalizing lo with
  | nil => rfl
  | cons c m ih =>
    obtain ⟨x, w⟩ := c
    simp only [Memory.wfFrom, Bool.and_eq_true, decide_eq_true_eq] at h
    rw [Memory.read, if_neg (by omega)]
    exact ih h.2 (by omega)

/-- What a read gives after a write: the byte written at its address, the old byte everywhere else. -/
theorem Memory.read_write {lo : Nat} {m : Memory} (h : m.wfFrom lo = true) (a : Nat) (v : Byte) (k : Nat) :
    (m.write a v).read k = if k = a then v else m.read k := by
  induction m generalizing lo with
  | nil =>
    unfold Memory.write
    split
    · next hv => subst hv; simp [Memory.read]
    · by_cases hk : k = a
      · subst hk; simp [Memory.read]
      · simp [Memory.read, hk, Ne.symm hk]
  | cons c m ih =>
    obtain ⟨x, w⟩ := c
    simp only [Memory.wfFrom, Bool.and_eq_true, decide_eq_true_eq] at h
    have hrest : ∀ j, j ≤ x → Memory.read m j = unlistedByte := fun j hj => Memory.read_of_lt h.2 (by omega)
    have ih' := ih h.2
    unfold Memory.write
    split
    · next hax =>
      split
      · next hv =>
        by_cases hk : k = a
        · subst hk hv; simp only [if_true, Memory.read]; rw [if_neg (by omega)]; exact hrest k (by omega)
        · rw [if_neg hk]
      · by_cases hk : k = a
        · subst hk; simp [Memory.read]
        · rw [if_neg hk, Memory.read, if_neg (Ne.symm hk)]
    · split
      · next hax =>
        subst hax
        split
        · next hv =>
          by_cases hk : k = a
          · subst hk hv; simp only [if_true]; exact hrest k (by omega)
          · rw [if_neg hk, Memory.read, if_neg (Ne.symm hk)]
        · by_cases hk : k = a
          · subst hk; simp [Memory.read]
          · simp only [Memory.read, if_neg (Ne.symm hk), if_neg hk]
      · next h1 h2 =>
        simp only [Memory.read, ih']
        by_cases hk : k = a
        · subst hk; rw [if_neg (by omega)]; simp
        · by_cases hx : x = k <;> simp [hk, hx]

theorem Memory.wfFrom_mono {lo lo' : Nat} {m : Memory} (hlo : lo' ≤ lo) (h : m.wfFrom lo = true) :
    m.wfFrom lo' = true := by
  cases m with
  | nil => rfl
  | cons c m =>
    obtain ⟨x, w⟩ := c
    simp only [Memory.wfFrom, Bool.and_eq_true, decide_eq_true_eq] at h ⊢
    exact ⟨⟨⟨by omega, h.1.1.2⟩, h.1.2⟩, h.2⟩

theorem Memory.wfFrom_write {lo a : Nat} {m : Memory} (v : Byte) (h : m.wfFrom lo = true) (hlo : lo ≤ a)
    (ha : a < Config.addressSpace) : (m.write a v).wfFrom lo = true := by
  induction m generalizing lo with
  | nil =>
    unfold Memory.write
    split
    · rfl
    · simp [Memory.wfFrom, *]
  | cons c m ih =>
    obtain ⟨x, w⟩ := c
    have h' := h
    simp only [Memory.wfFrom, Bool.and_eq_true, decide_eq_true_eq] at h
    unfold Memory.write
    split
    · split
      · exact h'
      · next hax hv =>
        simp only [Memory.wfFrom, Bool.and_eq_true, decide_eq_true_eq]
        exact ⟨⟨⟨hlo, ha⟩, by simpa using hv⟩, ⟨⟨⟨by omega, h.1.1.2⟩, h.1.2⟩, h.2⟩⟩
    · split
      · next hax =>
        subst hax
        split
        · exact Memory.wfFrom_mono (by omega) h.2
        · next hv =>
          simp only [Memory.wfFrom, Bool.and_eq_true, decide_eq_true_eq]
          exact ⟨⟨⟨hlo, ha⟩, by simpa using hv⟩, h.2⟩
      · next h1 h2 =>
        simp only [Memory.wfFrom, Bool.and_eq_true, decide_eq_true_eq]
        exact ⟨h.1, ih h.2 (by omega)⟩

/-- Every memory operation keeps the canonical form: the host's write is the only one that changes memory. -/
theorem Memory.wf_write {m : Memory} (a : Addr) (v : Byte) (h : m.wf = true) : (m.write a.toNat v).wf = true :=
  Memory.wfFrom_write v h (Nat.zero_le _) (by simpa [Config.addressSpace, Config.addrw] using a.isLt)

theorem Memory.wf_hostPlace {s : State} (a : Addr) (vs : List Byte) (h : s.mem.wf = true) :
    (s.hostPlace a vs).mem.wf = true := by
  induction vs generalizing s a with
  | nil => exact h
  | cons v vs ih => exact ih (a + 1) (Memory.wf_write a v h)

/-- Canonical memories that read alike at every address are equal. -/
theorem Memory.eq_of_read_eq {lo : Nat} {m m' : Memory} (h : m.wfFrom lo = true) (h' : m'.wfFrom lo = true)
    (hr : ∀ k, m.read k = m'.read k) : m = m' := by
  induction m generalizing m' lo with
  | nil =>
    cases m' with
    | nil => rfl
    | cons c m' =>
      obtain ⟨x, w⟩ := c
      have hx := hr x
      simp only [Memory.wfFrom, Bool.and_eq_true, decide_eq_true_eq] at h'
      simp_all [Memory.read]
  | cons c m ih =>
    obtain ⟨x, w⟩ := c
    simp only [Memory.wfFrom, Bool.and_eq_true, decide_eq_true_eq] at h
    cases m' with
    | nil => have hx := hr x; simp_all [Memory.read]
    | cons d m' =>
      obtain ⟨y, u⟩ := d
      simp only [Memory.wfFrom, Bool.and_eq_true, decide_eq_true_eq] at h'
      have hxy : x = y := by
        rcases Nat.lt_trichotomy x y with hlt | heq | hgt
        · have hx := hr x
          rw [Memory.read, if_pos rfl, Memory.read, if_neg (by omega), Memory.read_of_lt h'.2 (by omega)] at hx
          simp_all
        · exact heq
        · have hy := hr y
          rw [Memory.read, if_neg (by omega), Memory.read_of_lt h.2 (by omega), Memory.read, if_pos rfl] at hy
          simp_all
      subst hxy
      have hwu : w = u := by have hx := hr x; simpa [Memory.read] using hx
      subst hwu
      congr 1
      refine ih h.2 h'.2 fun k => ?_
      by_cases hk : x = k
      · subst hk; rw [Memory.read_of_lt h.2 (by omega), Memory.read_of_lt h'.2 (by omega)]
      · simpa [Memory.read, hk] using hr k

end Sys2Proof.Machine
end

