-- ==== Sys2Proof/Laws/Stream.lean ====
section
/-! SUPPORT. The stream `S` and `field` of 00_scope.md R10 as numbers: bounds, concatenation (20_memory.md R56), the zeros
past the end, the bytes of the buffer, and the search for the first set bit. -/

namespace Sys2Proof.Machine

/-! ### field over any bit sequence -/

@[simp] theorem fieldOf_zero (S : Nat → Nat) (p : Nat) : fieldOf S p 0 = 0 := rfl

theorem fieldOf_succ (S : Nat → Nat) (p n : Nat) : fieldOf S p (n + 1) = 2 * fieldOf S p n + S (p + n) := rfl

theorem fieldOf_one (S : Nat → Nat) (p : Nat) : fieldOf S p 1 = S p := by simp [fieldOf]

theorem fieldOf_congr {S T : Nat → Nat} {p n : Nat} (h : ∀ k, p ≤ k → k < p + n → S k = T k) :
    fieldOf S p n = fieldOf T p n := by
  induction n with
  | zero => rfl
  | succ n ih => rw [fieldOf_succ, fieldOf_succ, ih fun k hk hn => h k hk (by omega), h (p + n) (by omega) (by omega)]

theorem fieldOf_lt {S : Nat → Nat} (hS : ∀ k, S k < 2) (p n : Nat) : fieldOf S p n < 2 ^ n := by
  induction n with
  | zero => simp
  | succ n ih =>
    have h := hS (p + n)
    rw [fieldOf_succ, pow_succ]
    omega

/-- Concatenation: the field of `a + b` bits is the field of `a` bits followed by the field of `b` bits (20_memory.md
R56). -/
theorem fieldOf_add (S : Nat → Nat) (p a b : Nat) :
    fieldOf S p (a + b) = fieldOf S p a * 2 ^ b + fieldOf S (p + a) b := by
  induction b with
  | zero => simp
  | succ b ih =>
    rw [← Nat.add_assoc, fieldOf_succ, fieldOf_succ, ih, pow_succ, Nat.add_assoc p a b]
    ring

theorem fieldOf_eq_zero {S : Nat → Nat} {p n : Nat} (h : ∀ k, p ≤ k → k < p + n → S k = 0) : fieldOf S p n = 0 := by
  induction n with
  | zero => rfl
  | succ n ih => rw [fieldOf_succ, ih fun k hk hn => h k hk (by omega), h (p + n) (by omega) (by omega)]

/-- A field is 0 only if every bit of it is. -/
theorem eq_zero_of_fieldOf_eq_zero {S : Nat → Nat} {p n : Nat} (h : fieldOf S p n = 0) :
    ∀ k, p ≤ k → k < p + n → S k = 0 := by
  induction n with
  | zero => intro k hk hn; omega
  | succ n ih =>
    rw [fieldOf_succ] at h
    intro k hk hn
    rcases Nat.lt_or_ge k (p + n) with hlt | hge
    · exact ih (by omega) k hk hlt
    · have : k = p + n := by omega
      subst this; omega

/-! ### The stream of a window -/

theorem streamBit_lt_two (m : Memory) (base len k : Nat) : streamBit m base len k < 2 := by
  unfold streamBit; split <;> omega

theorem streamBit_past_end {m : Memory} {base len k : Nat} (h : 8 * len ≤ k) : streamBit m base len k = 0 := by
  simp [streamBit, Nat.not_lt.mpr h]

/-- The stream depends on the bytes of the window alone (20_memory.md R51). -/
theorem streamBit_congr {m m' : Memory} {base len : Nat} (h : ∀ k, k < len → m.read (base + k) = m'.read (base + k)) :
    streamBit m base len = streamBit m' base len := by
  funext k
  unfold streamBit
  split
  · rw [h (k / 8) (by omega)]
  · rfl

theorem field_past_end {m : Memory} {base len p n : Nat} (h : 8 * len ≤ p) : fieldOf (streamBit m base len) p n = 0 :=
  fieldOf_eq_zero fun _ hk _ => streamBit_past_end (by omega)

/-- Eight bits at a byte boundary of the buffer are the byte itself (20_memory.md R55). -/
theorem field_byte {m : Memory} {base len k : Nat} (h : k < len) :
    fieldOf (streamBit m base len) (8 * k) 8 = (m.read (base + k)).toNat := by
  have hb := (m.read (base + k)).isLt
  have hbit : ∀ j, j < 8 → streamBit m base len (8 * k + j) = (m.read (base + k)).toNat / 2 ^ (7 - j) % 2 := by
    intro j hj
    have hdiv : (8 * k + j) / 8 = k := by omega
    have hmod : (8 * k + j) % 8 = j := by omega
    have hlt : 8 * k + j < 8 * len := by omega
    simp only [streamBit, hlt, if_true, hdiv, hmod]
  have h0 := hbit 0 (by omega)
  simp only [Nat.add_zero] at h0
  simp only [fieldOf_succ, fieldOf_zero, Nat.add_zero, h0, hbit 1 (by omega), hbit 2 (by omega), hbit 3 (by omega),
    hbit 4 (by omega), hbit 5 (by omega), hbit 6 (by omega), hbit 7 (by omega)]
  norm_num
  omega

theorem stream_lt_two (s : State) (k : Nat) : s.stream k < 2 := streamBit_lt_two _ _ _ _

theorem stream_past_end {s : State} {k : Nat} (h : s.bitLen ≤ k) : s.stream k = 0 := streamBit_past_end h

theorem field_lt (s : State) (p n : Nat) : s.field p n < 2 ^ n := fieldOf_lt (stream_lt_two s) p n

theorem State.field_add (s : State) (p a b : Nat) : s.field p (a + b) = s.field p a * 2 ^ b + s.field (p + a) b :=
  fieldOf_add _ _ _ _

theorem State.field_past_end {s : State} {p n : Nat} (h : s.bitLen ≤ p) : s.field p n = 0 :=
  Machine.field_past_end h

/-! ### The first set bit -/

theorem firstSet_eq_none {S : Nat → Nat} {n p : Nat} :
    firstSet S n p = none ↔ ∀ k, p ≤ k → k < p + n → S k ≠ 1 := by
  induction n generalizing p with
  | zero => exact iff_of_true rfl fun k hk hn => by omega
  | succ n ih =>
    rw [firstSet]
    split
    · next h => simp only [reduceCtorEq, false_iff]; intro hall; exact hall p (by omega) (by omega) h
    · next h =>
      rw [ih]
      constructor
      · intro hall k hk hn
        rcases Nat.eq_or_lt_of_le hk with rfl | hlt
        · exact h
        · exact hall k hlt (by omega)
      · intro hall k hk hn; exact hall k (by omega) (by omega)

theorem firstSet_eq_some {S : Nat → Nat} {n p q : Nat} :
    firstSet S n p = some q ↔ p ≤ q ∧ q < p + n ∧ S q = 1 ∧ ∀ k, p ≤ k → k < q → S k ≠ 1 := by
  induction n generalizing p with
  | zero => simp [firstSet]; intro h1 h2; omega
  | succ n ih =>
    rw [firstSet]
    split
    · next h =>
      constructor
      · rintro ⟨rfl⟩; exact ⟨by omega, by omega, h, fun k hk hq => by omega⟩
      · rintro ⟨h1, h2, h3, h4⟩
        rcases Nat.eq_or_lt_of_le h1 with rfl | hlt
        · rfl
        · exact absurd h (h4 p (by omega) hlt)
    · next h =>
      rw [ih]
      constructor
      · rintro ⟨h1, h2, h3, h4⟩
        refine ⟨by omega, by omega, h3, fun k hk hq => ?_⟩
        rcases Nat.eq_or_lt_of_le hk with rfl | hlt
        · exact h
        · exact h4 k hlt hq
      · rintro ⟨h1, h2, h3, h4⟩
        rcases Nat.eq_or_lt_of_le h1 with rfl | hlt
        · exact absurd h3 h
        · exact ⟨hlt, by omega, h3, fun k hk hq => h4 k (by omega) hq⟩

/-- Past the end of the buffer no bit is set. -/
theorem firstSet_past_end {s : State} {n p : Nat} (h : s.bitLen ≤ p) : firstSet s.stream n p = none :=
  firstSet_eq_none.mpr fun k hk _ => by rw [stream_past_end (by omega)]; omega

/-- A set bit lies inside the buffer. -/
theorem firstSet_lt_bitLen {s : State} {n p q : Nat} (h : firstSet s.stream n p = some q) : q < s.bitLen := by
  have hq := (firstSet_eq_some.mp h).2.2.1
  rcases Nat.lt_or_ge q s.bitLen with hlt | hge
  · exact hlt
  · rw [stream_past_end hge] at hq; omega

end Sys2Proof.Machine
end

