-- ==== Sys2Proof/Laws/Ops.lean ====
section
/-! SUPPORT. What each shared operation can do, said once: for every state (what it leaves alone and which bytes it reads),
and for a state that meets the invariants of 10_state.md R26 (that it completes, its value and its cursor). -/

namespace Sys2Proof.Machine

@[simp] theorem fill_eq : Config.fill = 56 := rfl
@[simp] theorem maxz_eq : Config.maxz = 20 := rfl
@[simp] theorem nmax_eq : Config.nmax = 32 := rfl
@[simp] theorem addressSpace_eq : Config.addressSpace = 4294967296 := rfl

/-! ### Numbers as response values (30_encoding.md R78) -/

@[simp] theorem zext32_toNat (v : Nat) : (zext32 v).toNat = v % 4294967296 := by
  simp only [zext32, BitVec.toNat_ofNat, Config.valw, Nat.reducePow]

theorem sext32_toInt {v : Int} (hlo : -2147483648 ≤ v) (hhi : v < 2147483648) : (sext32 v).toInt = v := by
  rw [sext32, BitVec.toInt_ofInt]
  exact Int.bmod_eq_of_le (by simpa using hlo) (by simpa using hhi)

/-! ### What pulling and consuming leave alone, in every state -/

namespace State.SameButCursor

variable {s t u : State}

theorem refl (s : State) : s.SameButCursor s := rfl

theorem base (h : s.SameButCursor t) : t.base = s.base := by rw [show t = _ from h]
theorem len (h : s.SameButCursor t) : t.len = s.len := by rw [show t = _ from h]
theorem mem (h : s.SameButCursor t) : t.mem = s.mem := by rw [show t = _ from h]
theorem commands (h : s.SameButCursor t) : t.commands = s.commands := by rw [show t = _ from h]
theorem responses (h : s.SameButCursor t) : t.responses = s.responses := by rw [show t = _ from h]
theorem draws (h : s.SameButCursor t) : t.draws = s.draws := by rw [show t = _ from h]

theorem of_fields (hb : t.base = s.base) (hl : t.len = s.len) (hm : t.mem = s.mem) (hc : t.commands = s.commands)
    (hr : t.responses = s.responses) (hd : t.draws = s.draws) : s.SameButCursor t := by
  obtain ⟨⟩ := t
  simp_all [State.SameButCursor]

theorem trans (h : s.SameButCursor t) (h' : t.SameButCursor u) : s.SameButCursor u :=
  of_fields (h'.base.trans h.base) (h'.len.trans h.len) (h'.mem.trans h.mem) (h'.commands.trans h.commands)
    (h'.responses.trans h.responses) (h'.draws.trans h.draws)

theorem stream (h : s.SameButCursor t) : t.stream = s.stream := by
  rw [State.stream, State.stream, h.base, h.len, h.mem]

theorem bitLen (h : s.SameButCursor t) : t.bitLen = s.bitLen := by rw [State.bitLen, State.bitLen, h.len]

theorem field (h : s.SameButCursor t) (p n : Nat) : t.field p n = s.field p n := by
  rw [State.field, State.field, h.stream]

end State.SameButCursor

/-- Everything that pulling bytes and consuming bits can do: nothing but the cursor and the record of the memory port
changes, the bytes read are the next ones in order, and all of them lie inside the window (20_memory.md R51, R54). -/
structure State.Advances (s t : State) : Prop where
  same : s.SameButCursor t
  readOn : s.ReadOn t
  inside : t.off = s.off ∨ t.off.toNat ≤ s.len.toNat

namespace State.Advances

variable {s t u : State}

theorem refl (s : State) : s.Advances s := ⟨rfl, ⟨Nat.le_refl _, by simp⟩, .inl rfl⟩

theorem trans (h : s.Advances t) (h' : t.Advances u) : s.Advances u := by
  refine ⟨h.same.trans h'.same, ⟨h.readOn.1.trans h'.readOn.1, ?_⟩, ?_⟩
  · have h1 := h.readOn.1
    have h2 := h'.readOn.1
    rw [h'.readOn.2, h.readOn.2, h.same.base, List.append_assoc, List.append_cancel_left_eq,
      show u.off.toNat - s.off.toNat = (t.off.toNat - s.off.toNat) + (u.off.toNat - t.off.toNat) by omega,
      List.range_add, List.map_append, List.map_map]
    congr 1
    apply List.map_congr_left
    intro k _
    simp only [Function.comp]
    omega
  · rcases h'.inside with he | hl
    · rw [he]; exact h.inside
    · right; rw [← h.same.len]; exact hl

/-- Consuming reads nothing. -/
theorem consume (s : State) (n : Nat) : s.Advances (s.consume n) := ⟨rfl, ⟨Nat.le_refl _, by simp⟩, .inl rfl⟩

/-- A response after pulling and consuming is all that changes besides the cursor. -/
theorem answered (h : s.Advances t) (st : Status) (v : Value) : s.Answered (t.respond st v) ⟨st, v⟩ := by
  obtain ⟨⟩ := t
  simp [State.Answered, State.respond, ← h.same.base, ← h.same.len, ← h.same.mem, ← h.same.commands,
    ← h.same.responses, ← h.same.draws]

/-- The same for the response of a failed Golomb read. -/
theorem answeredGolombErr (h : s.Advances t) : s.AnsweredGolombErr t.respondGolombErr := by
  obtain ⟨⟩ := t
  simp [State.AnsweredGolombErr, State.respondGolombErr, State.respond, ← h.same.base, ← h.same.len, ← h.same.mem,
    ← h.same.commands, ← h.same.responses, ← h.same.draws]

end State.Advances

/-- The state a pull reaches: the port's record, then the byte taken in. -/
theorem pull_eq {s : State} :
    pull s = if s.base.toNat + s.off.toNat < Config.addressSpace then
        .ok (({ s with reads := s.reads ++ [s.base.toNat + s.off.toNat] } : State).accept
          (s.mem.read (s.base.toNat + s.off.toNat)))
      else .error .addressOutsideMemory := by
  unfold pull memRead
  by_cases h : s.base.toNat + s.off.toNat < Config.addressSpace
  · rw [if_pos h, if_pos h]
  · rw [if_neg h, if_neg h]

theorem canPull_iff {s : State} : s.canPull = true ↔ s.cnt.toNat ≤ 56 ∧ s.off.toNat < s.len.toNat := by
  rw [State.canPull, Bool.and_eq_true, decide_eq_true_iff, decide_eq_true_iff, fill_eq]

theorem off_succ_toNat {s : State} (h : s.off.toNat < s.len.toNat) : (s.off + 1).toNat = s.off.toNat + 1 := by
  have := s.len_lt
  rw [BitVec.toNat_add]
  simp
  omega

theorem cnt_add_toNat {s : State} (h : s.cnt.toNat ≤ 56) : (s.cnt + 8).toNat = s.cnt.toNat + 8 := by
  rw [BitVec.toNat_add]
  simp
  omega

theorem pull_advances {s t : State} (hc : s.canPull = true) (h : pull s = .ok t) :
    s.Advances t ∧ t.off.toNat = s.off.toNat + 1 := by
  rw [pull_eq] at h
  split at h
  · have hoff := (canPull_iff.mp hc).2
    have hs := off_succ_toNat hoff
    simp only [Except.ok.injEq] at h
    subst h
    refine ⟨⟨rfl, ⟨?_, ?_⟩, .inr ?_⟩, ?_⟩ <;> simp only [accept_off, accept_reads, hs] <;> first | omega | simp
  · simp at h

theorem refillLoop_advances {k : Nat} {s t : State} (h : refillLoop k s = .ok t) : s.Advances t := by
  induction k generalizing s with
  | zero => simp only [refillLoop, Except.ok.injEq] at h; exact h ▸ State.Advances.refl s
  | succ k ih =>
    unfold refillLoop at h
    split at h
    · next hc =>
      split at h
      · next u hu => exact (pull_advances hc hu).1.trans (ih h)
      · simp at h
    · simp only [Except.ok.injEq] at h; exact h ▸ State.Advances.refl s

theorem refillFor_advances {n : Nat} {s t : State} (h : refillFor n s = .ok t) : s.Advances t := by
  unfold refillFor at h
  split at h
  · exact refillLoop_advances h
  · simp only [Except.ok.injEq] at h; exact h ▸ State.Advances.refl s

theorem getBits_eq_ok {n v : Nat} {s t : State} :
    getBits n s = .ok (v, t) ↔ ∃ u, refillFor n s = .ok u ∧ v = u.topBits n ∧ t = u.consume n := by
  unfold getBits
  cases h : refillFor n s with
  | ok u =>
    simp only [Except.ok.injEq, Prod.mk.injEq]
    constructor
    · rintro ⟨rfl, rfl⟩; exact ⟨u, rfl, rfl, rfl⟩
    · rintro ⟨w, rfl, rfl, rfl⟩; exact ⟨rfl, rfl⟩
  | error f => simp

theorem peekBits_eq_ok {n v : Nat} {s t : State} :
    peekBits n s = .ok (v, t) ↔ refillFor n s = .ok t ∧ v = t.topBits n := by
  unfold peekBits
  cases h : refillFor n s with
  | ok u =>
    simp only [Except.ok.injEq, Prod.mk.injEq]
    constructor
    · rintro ⟨rfl, rfl⟩; exact ⟨rfl, rfl⟩
    · rintro ⟨rfl, rfl⟩; exact ⟨rfl, rfl⟩
  | error f => simp

theorem getBits_advances {n v : Nat} {s t : State} (h : getBits n s = .ok (v, t)) : s.Advances t := by
  obtain ⟨u, hu, -, rfl⟩ := getBits_eq_ok.mp h
  exact (refillFor_advances hu).trans (.consume u n)

theorem peekBits_advances {n v : Nat} {s t : State} (h : peekBits n s = .ok (v, t)) : s.Advances t :=
  refillFor_advances (peekBits_eq_ok.mp h).1

/-- With enough bits buffered `get` pulls nothing (20_memory.md R52). -/
theorem getBits_of_le {n : Nat} {s : State} (h : n ≤ s.cnt.toNat) : getBits n s = .ok (s.topBits n, s.consume n) := by
  simp [getBits, refillFor, Nat.not_lt.mpr h]

/-- With enough bits buffered `peek` pulls nothing (20_memory.md R52). -/
theorem peekBits_of_le {n : Nat} {s : State} (h : n ≤ s.cnt.toNat) : peekBits n s = .ok (s.topBits n, s) := by
  simp [peekBits, refillFor, Nat.not_lt.mpr h]

/-! ### The invariants under responses and records -/

namespace State.Inv

variable {s t : State}

theorem respond (h : s.Inv) (st : Status) (v : Value) : (s.respond st v).Inv :=
  ⟨h.1, h.2, h.3, h.4, h.5, h.6, h.7, h.8⟩

theorem respondGolombErr (h : s.Inv) : s.respondGolombErr.Inv := ⟨h.1, h.2, h.3, h.4, h.5, h.6, h.7, h.8⟩

theorem withCommands (h : s.Inv) (cs : List Command) : ({ s with commands := cs } : State).Inv :=
  ⟨h.1, h.2, h.3, h.4, h.5, h.6, h.7, h.8⟩

theorem withReads (h : s.Inv) (rs : List Nat) : ({ s with reads := rs } : State).Inv :=
  ⟨h.1, h.2, h.3, h.4, h.5, h.6, h.7, h.8⟩

/-- `8*off = pos + cnt`: the valid bits end at the next byte to pull. -/
theorem pos_add_cnt (h : s.Inv) : s.pos + s.cnt.toNat = 8 * s.off.toNat := by
  have := h.cnt_le_off
  unfold State.pos
  omega

/-- The exhausted state is the one whose cursor is at the end (40_fixed_width.md R99). -/
theorem exhausted_iff (h : s.Inv) : s.exhausted = true ↔ s.pos = s.bitLen := by
  have h1 := h.pos_add_cnt
  have h2 := h.off_le
  simp only [State.exhausted, Bool.and_eq_true, beq_iff_eq, ← BitVec.toNat_inj, State.bitLen]
  simp
  omega

end State.Inv

/-- A fresh cursor over a window that fits meets the invariants (43_control.md R135). -/
theorem installCursor_inv {s : State} {b : Addr} {l : Offset} (hf : WindowFits b l) (hm : s.mem.wf = true) :
    (s.installCursor b l).Inv := by
  refine ⟨?_, ?_, ?_, ?_, ?_, ?_, hf, hm⟩ <;> simp [State.pos, State.field]

/-! ### The byte pull and REFILL under the invariants -/

/-- The byte lands below the valid bits: the sum on the left is the accumulator after a pull (40_fixed_width.md R90). -/
theorem acc_or_byte {acc : Acc} {b : Byte} {f c : Nat} (hc : c ≤ 56) (hacc : acc.toNat = f * 2 ^ (64 - c)) :
    (acc ||| (b.setWidth 64 <<< (56 - c))).toNat = (f * 2 ^ 8 + b.toNat) * 2 ^ (64 - (c + 8)) := by
  have hb := b.isLt
  have hsplit : (2 : Nat) ^ (64 - c) = 2 ^ 8 * 2 ^ (56 - c) := by rw [← pow_add]; congr 1; omega
  have hle : b.toNat * 2 ^ (56 - c) < 2 ^ (64 - c) := by
    rw [hsplit]; exact Nat.mul_lt_mul_of_pos_right hb (Nat.two_pow_pos _)
  have hword : (2 : Nat) ^ (64 - c) ≤ 2 ^ 64 := Nat.pow_le_pow_right (by omega) (by omega)
  have hshift : (b.setWidth 64 <<< (56 - c)).toNat = b.toNat * 2 ^ (56 - c) := by
    rw [BitVec.toNat_shiftLeft, BitVec.toNat_setWidth, Nat.shiftLeft_eq, Nat.mod_eq_of_lt (a := b.toNat) (by omega),
      Nat.mod_eq_of_lt (by omega)]
  rw [BitVec.toNat_or, hshift, hacc, Nat.mul_comm f, ← Nat.two_pow_add_eq_or_of_lt hle, hsplit,
    show 64 - (c + 8) = 56 - c by omega]
  ring

/-- One pull under the invariants: it succeeds, keeps them, and leaves the bit cursor alone (40_fixed_width.md R90). -/
theorem pull_inv {s : State} (h : s.Inv) (hc : s.canPull = true) :
    ∃ t, pull s = .ok t ∧ t.Inv ∧ t.pos = s.pos ∧ t.off.toNat = s.off.toNat + 1 ∧ t.cnt.toNat = s.cnt.toNat + 8 := by
  obtain ⟨hcnt, hoff⟩ := canPull_iff.mp hc
  have hw := h.window
  have haddr : s.base.toNat + s.off.toNat < Config.addressSpace := by unfold WindowFits at hw; omega
  have h1 := off_succ_toNat hoff
  have h2 := cnt_add_toNat hcnt
  have hpc := h.pos_add_cnt
  refine ⟨_, by rw [pull_eq, if_pos haddr], ?_, ?_, ?_, ?_⟩
  · have hpos : (({ s with reads := s.reads ++ [s.base.toNat + s.off.toNat] } : State).accept
        (s.mem.read (s.base.toNat + s.off.toNat))).pos = s.pos := by
      simp only [State.pos, accept_off, accept_cnt, h1, h2]; omega
    constructor
    case cnt_le => simp only [accept_cnt, h2]; simp; omega
    case off_le => simp only [accept_off, accept_len, h1]; omega
    case cnt_le_off => simp only [accept_off, accept_cnt, h1, h2]; have := h.cnt_le_off; omega
    case byte_end => rw [hpos]; simp only [accept_cnt, h2]; have := h.byte_end; omega
    case acc_eq =>
      rw [hpos]
      simp only [accept_cnt, accept_acc, h2, State.field, accept_stream]
      rw [fieldOf_add, hpc]
      have hbyte : fieldOf s.stream (8 * s.off.toNat) 8 = (s.mem.read (s.base.toNat + s.off.toNat)).toNat :=
        field_byte hoff
      have hacc := acc_or_byte (b := s.mem.read (s.base.toNat + s.off.toNat)) hcnt h.acc_eq
      rw [State.field] at hacc
      exact hacc.trans (by rw [← hbyte]; rfl)
    case pos_le => rw [hpos]; exact h.pos_le
    case window => exact h.window
    case mem_wf => exact h.mem_wf
  · simp only [State.pos, accept_off, accept_cnt, h1, h2]; omega
  · simp only [accept_off, h1]
  · simp only [accept_cnt, h2]

/-- How many bytes `k` turns of the refill loop pull: `min(k, len - off, (64 - cnt) div 8)` (40_fixed_width.md R90). -/
theorem refillLoop_inv {s : State} (h : s.Inv) (k : Nat) :
    ∃ t, refillLoop k s = .ok t ∧ t.Inv ∧ t.pos = s.pos ∧
      t.off.toNat = s.off.toNat + min k (min (s.len.toNat - s.off.toNat) ((64 - s.cnt.toNat) / 8)) := by
  induction k generalizing s with
  | zero => exact ⟨s, rfl, h, rfl, by simp⟩
  | succ k ih =>
    unfold refillLoop
    by_cases hc : s.canPull = true
    · obtain ⟨u, hu, hinv, hpos, hoff, hcnt⟩ := pull_inv h hc
      obtain ⟨t, ht, hti, htp, hto⟩ := ih hinv
      have hlen : u.len = s.len := (pull_advances hc hu).1.same.len
      obtain ⟨hc1, hc2⟩ := canPull_iff.mp hc
      refine ⟨t, by simp only [hc, if_true, hu, ht], hti, htp.trans hpos, ?_⟩
      rw [hto, hoff, hcnt, hlen]
      omega
    · refine ⟨s, by simp only [hc]; rfl, h, rfl, ?_⟩
      rw [canPull_iff] at hc
      have := h.off_le
      omega

/-- `REFILL` under the invariants (40_fixed_width.md R90): it reads `min(len - off, (64 - cnt) div 8)` bytes, does not
move the bit cursor, and ends full or at the end of the buffer (R91). -/
theorem refill_inv {s : State} (h : s.Inv) :
    ∃ t, refill s = .ok t ∧ t.Inv ∧ t.pos = s.pos ∧
      t.off.toNat = s.off.toNat + min (s.len.toNat - s.off.toNat) ((64 - s.cnt.toNat) / 8) ∧
      (57 ≤ t.cnt.toNat ∨ t.off = t.len) := by
  obtain ⟨t, ht, hti, htp, hto⟩ := refillLoop_inv h 8
  have hadv := refillLoop_advances ht
  have hlen : t.len = s.len := hadv.same.len
  have hpc := h.pos_add_cnt
  have hpc' := hti.pos_add_cnt
  have h64 := h.cnt_le
  have hol := h.off_le
  refine ⟨t, ht, hti, htp, by omega, ?_⟩
  simp only [Config.accw] at h64
  rw [← BitVec.toNat_inj, hlen]
  omega

/-- The refill of a request of `n` bits under the invariants: afterwards `n` bits are buffered or the buffer has no more
bytes (40_fixed_width.md R91). -/
theorem refillFor_inv {s : State} {n : Nat} (h : s.Inv) (hn : n ≤ 57) :
    ∃ t, refillFor n s = .ok t ∧ t.Inv ∧ t.pos = s.pos ∧ (n ≤ t.cnt.toNat ∨ t.off = t.len) := by
  unfold refillFor
  split
  · obtain ⟨t, ht, hti, htp, -, hend⟩ := refill_inv h
    exact ⟨t, ht, hti, htp, hend.imp (by omega) id⟩
  · exact ⟨s, rfl, h, rfl, .inl (by omega)⟩

/-! ### get and peek under the invariants -/

theorem topBits_eq (s : State) (n : Nat) : s.topBits n = s.acc.toNat / 2 ^ (64 - n) := by
  rw [State.topBits, BitVec.toNat_ushiftRight, Nat.shiftRight_eq_div_pow]

/-- The top `n` bits of the accumulator are the next `n` bits of the stream, when they are buffered or the buffer has
ended (40_fixed_width.md R92). -/
theorem topBits_inv {s : State} {n : Nat} (h : s.Inv) (hn : n ≤ 64) (henough : n ≤ s.cnt.toNat ∨ s.off = s.len) :
    s.topBits n = s.field s.pos n := by
  have hacc := h.acc_eq
  have hc := h.cnt_le
  simp only [Config.accw] at hacc hc
  rw [topBits_eq, hacc]
  rcases Nat.le_total n s.cnt.toNat with hle | hge
  · have hsplit := State.field_add s s.pos n (s.cnt.toNat - n)
    rw [Nat.add_sub_cancel' hle] at hsplit
    have hlow := field_lt s (s.pos + n) (s.cnt.toNat - n)
    have hpow : (2 : Nat) ^ (64 - n) = 2 ^ (s.cnt.toNat - n) * 2 ^ (64 - s.cnt.toNat) := by
      rw [← pow_add]; congr 1; omega
    rw [hpow, Nat.mul_div_mul_right _ _ (Nat.two_pow_pos _), hsplit, Nat.add_comm,
      Nat.add_mul_div_right _ _ (Nat.two_pow_pos _), Nat.div_eq_of_lt hlow, Nat.zero_add]
  · have hend : s.field (s.pos + s.cnt.toNat) (n - s.cnt.toNat) = 0 := by
      rcases Nat.eq_or_lt_of_le hge with heq | hlt
      · rw [heq, Nat.sub_self]; rfl
      · apply State.field_past_end
        rcases henough with he | he
        · omega
        · rw [h.pos_add_cnt, he]; exact Nat.le_refl _
    have hsplit := State.field_add s s.pos s.cnt.toNat (n - s.cnt.toNat)
    rw [Nat.add_sub_cancel' hge, hend, Nat.add_zero] at hsplit
    have hpow : (2 : Nat) ^ (64 - s.cnt.toNat) = 2 ^ (n - s.cnt.toNat) * 2 ^ (64 - n) := by
      rw [← pow_add]; congr 1; omega
    rw [hpow, ← Nat.mul_assoc, Nat.mul_div_cancel _ (Nat.two_pow_pos _), hsplit]

theorem consume_cnt_toNat {s : State} (h : s.cnt.toNat ≤ 64) (n : Nat) :
    (s.consume n).cnt.toNat = s.cnt.toNat - n := by
  rw [consume_cnt, BitVec.toNat_ofNat]
  omega

/-- Consuming `n` bits keeps the invariants and moves the cursor by `n`, or to the end of the buffer (40_fixed_width.md
R92). -/
theorem consume_inv {s : State} {n : Nat} (h : s.Inv) (henough : n ≤ s.cnt.toNat ∨ s.off = s.len) :
    (s.consume n).Inv ∧ (s.consume n).pos = min (s.pos + n) s.bitLen := by
  have hc := h.cnt_le
  have hacc := h.acc_eq
  simp only [Config.accw] at hacc hc
  have hcnt := consume_cnt_toNat hc n
  have hpc := h.pos_add_cnt
  have hol := h.off_le
  have hpl := h.pos_le
  have henough' : n ≤ s.cnt.toNat ∨ s.off.toNat = s.len.toNat := henough.imp id (congrArg _)
  have hL : s.bitLen = 8 * s.len.toNat := rfl
  have hpos : (s.consume n).pos = s.pos + min n s.cnt.toNat := by
    rw [State.pos, hcnt, consume_off]
    have : s.pos = 8 * s.off.toNat - s.cnt.toNat := rfl
    omega
  have hpos' : (s.consume n).pos = min (s.pos + n) s.bitLen := by
    rw [hpos]; omega
  refine ⟨?_, hpos'⟩
  constructor
  case cnt_le => rw [hcnt]; simp only [Config.accw]; omega
  case off_le => exact hol
  case cnt_le_off => rw [hcnt, consume_off]; omega
  case byte_end => rw [hpos, hcnt]; have := h.byte_end; omega
  case acc_eq =>
    rw [hpos, hcnt, consume_acc, BitVec.toNat_shiftLeft, Nat.shiftLeft_eq, hacc]
    change _ % 2 ^ 64 = s.field _ _ * 2 ^ (64 - _)
    rcases Nat.le_total n s.cnt.toNat with hle | hge
    · have hsplit := State.field_add s s.pos n (s.cnt.toNat - n)
      rw [Nat.add_sub_cancel' hle] at hsplit
      have hlow := field_lt s (s.pos + n) (s.cnt.toNat - n)
      rw [hsplit, Nat.min_eq_left hle]
      have hpow1 : (2 : Nat) ^ (s.cnt.toNat - n) * 2 ^ (64 - s.cnt.toNat) * 2 ^ n = 2 ^ 64 := by
        rw [← pow_add, ← pow_add]; congr 1; omega
      have hpow2 : (2 : Nat) ^ (64 - s.cnt.toNat) * 2 ^ n = 2 ^ (64 - (s.cnt.toNat - n)) := by
        rw [← pow_add]; congr 1; omega
      have hpow3 : (2 : Nat) ^ 64 = 2 ^ (s.cnt.toNat - n) * 2 ^ (64 - (s.cnt.toNat - n)) := by
        rw [← pow_add]; congr 1; omega
      have hlt : s.field (s.pos + n) (s.cnt.toNat - n) * 2 ^ (64 - (s.cnt.toNat - n)) < 2 ^ 64 := by
        rw [hpow3]; exact Nat.mul_lt_mul_of_pos_right hlow (Nat.two_pow_pos _)
      calc (s.field s.pos n * 2 ^ (s.cnt.toNat - n) + s.field (s.pos + n) (s.cnt.toNat - n)) *
              2 ^ (64 - s.cnt.toNat) * 2 ^ n % 2 ^ 64
          = (s.field (s.pos + n) (s.cnt.toNat - n) * (2 ^ (64 - s.cnt.toNat) * 2 ^ n) +
              2 ^ (s.cnt.toNat - n) * 2 ^ (64 - s.cnt.toNat) * 2 ^ n * s.field s.pos n) % 2 ^ 64 := by
            congr 1; ring
        _ = s.field (s.pos + n) (s.cnt.toNat - n) * 2 ^ (64 - (s.cnt.toNat - n)) := by
            rw [hpow1, hpow2, Nat.add_mul_mod_self_left, Nat.mod_eq_of_lt hlt]
    · have hz : s.cnt.toNat - n = 0 := by omega
      rw [hz]
      change _ = 0 * _
      have hpow : (2 : Nat) ^ (64 - s.cnt.toNat) * 2 ^ n = 2 ^ 64 * 2 ^ (n - s.cnt.toNat) := by
        rw [← pow_add, ← pow_add]; congr 1; omega
      rw [Nat.mul_assoc, hpow, Nat.mul_left_comm, Nat.mul_mod_right, Nat.zero_mul]
  case pos_le => rw [hpos', consume_bitLen]; omega
  case window => exact h.window
  case mem_wf => exact h.mem_wf

/-- `get(n)` under the invariants: it returns the next `n` bits of the stream and moves the cursor past them, or to the
end of the buffer (40_fixed_width.md R92). -/
theorem getBits_inv {s : State} {n : Nat} (h : s.Inv) (hn : n ≤ 57) :
    ∃ t, getBits n s = .ok (s.field s.pos n, t) ∧ t.Inv ∧ t.pos = min (s.pos + n) s.bitLen := by
  obtain ⟨u, hu, hui, hup, hend⟩ := refillFor_inv h hn
  have hadv := refillFor_advances hu
  obtain ⟨hci, hcp⟩ := consume_inv hui hend
  have htop := topBits_inv hui (by omega) hend
  rw [hup, hadv.same.field] at htop
  rw [hup, hadv.same.bitLen] at hcp
  exact ⟨u.consume n, by simp only [getBits, hu, htop], hci, hcp⟩

/-- `peek(n)` under the invariants: the same value, and the cursor stays (40_fixed_width.md R93). -/
theorem peekBits_inv {s : State} {n : Nat} (h : s.Inv) (hn : n ≤ 57) :
    ∃ t, peekBits n s = .ok (s.field s.pos n, t) ∧ t.Inv ∧ t.pos = s.pos := by
  obtain ⟨u, hu, hui, hup, hend⟩ := refillFor_inv h hn
  have hadv := refillFor_advances hu
  have htop := topBits_inv hui (by omega) hend
  rw [hup, hadv.same.field] at htop
  exact ⟨u, by simp only [peekBits, hu, htop], hui, hup⟩

/-- ALIGN's consumption under the invariants: to the next multiple of 8 (40_fixed_width.md R97). -/
theorem align_inv {s : State} (h : s.Inv) :
    (s.consume (s.cnt.toNat % 8)).Inv ∧ (s.consume (s.cnt.toNat % 8)).pos = 8 * ((s.pos + 7) / 8) := by
  obtain ⟨hi, hp⟩ := consume_inv h (n := s.cnt.toNat % 8) (.inl (Nat.mod_le _ _))
  refine ⟨hi, hp.trans ?_⟩
  have h1 := h.pos_add_cnt
  have h2 := h.off_le
  have hL : s.bitLen = 8 * s.len.toNat := rfl
  omega

end Sys2Proof.Machine
end

