-- ==== Sys2Proof/Laws/PerInstr.lean ====
section
/-! SUPPORT. Facts about every command as syntax, one lemma for each constructor. -/

namespace Sys2Proof.Laws.EncodedFields

/-- The word of a command holds its opcode, a zero reserved field and its bit count, each where 30_encoding.md R71 puts
it. -/
def Statement (i : Instr) : Prop :=
  opField (encodeWord i) = i.opcode ∧ rsvField (encodeWord i) = 0 ∧ nField (encodeWord i) = i.countField

theorem getbits (n : BitCount) : Statement (.getbits n) := by revert n; unfold Statement; decide
theorem peekbits (n : BitCount) : Statement (.peekbits n) := by revert n; unfold Statement; decide
theorem skipbits (n : BitCount) : Statement (.skipbits n) := by revert n; unfold Statement; decide
theorem align : Statement .align := by unfold Statement; decide
theorem uvlc : Statement .uvlc := by unfold Statement; decide
theorem svlc : Statement .svlc := by unfold Statement; decide
theorem rbsptrail : Statement .rbsptrail := by unfold Statement; decide
theorem init (initBase : Addr) (initLen : Offset) : Statement (.init initBase initLen) := by
  change Statement (.init 0 0); unfold Statement; decide

end Sys2Proof.Laws.EncodedFields
end

