-- ==== Sys2Proof/Laws/Decode.lean ====
section
/-! SUPPORT. What the decoder can answer, said once (30_encoding.md R74), and a command word as its three fields (R71). -/

namespace Sys2Proof

/-- A command word is its opcode, its reserved field and its bit count (30_encoding.md R71). -/
theorem word_eq_fields (w : CommandWord) :
    w.toNat = (opField w).toNat * 4096 + (rsvField w).toNat * 64 + (nField w).toNat := by
  have : w.toNat < 65536 := w.isLt
  simp only [opField, rsvField, nField, BitVec.extractLsb'_toNat, Nat.shiftRight_eq_div_pow]
  omega

/-- The encoded word as a number: the opcode, and the bit count (30_encoding.md R71). -/
theorem encodeWord_toNat (i : Instr) : (encodeWord i).toNat = i.opcode.toNat * 4096 + i.countField.toNat := by
  have hall : ∀ (o : BitVec 4) (n : BitCount),
      (o ++ (0 : BitVec 6) ++ n : BitVec 16).toNat = o.toNat * 4096 + n.toNat := by decide
  exact hall _ _

/-- Every way `decode` answers a command (30_encoding.md R74). -/
theorem decode_eq_ok {c : Command} {i : Instr} :
    decode c = .ok i ↔ rsvField c.word = 0 ∧
      (((opField c.word).toNat = 1 ∧ (nField c.word).toNat ≤ 32 ∧ .getbits (nField c.word) = i) ∨
        ((opField c.word).toNat = 2 ∧ (nField c.word).toNat ≤ 32 ∧ .peekbits (nField c.word) = i) ∨
        ((opField c.word).toNat = 3 ∧ (nField c.word).toNat ≤ 32 ∧ .skipbits (nField c.word) = i) ∨
        ((opField c.word).toNat = 4 ∧ nField c.word = 0 ∧ .align = i) ∨
        ((opField c.word).toNat = 5 ∧ nField c.word = 0 ∧ .uvlc = i) ∨
        ((opField c.word).toNat = 6 ∧ nField c.word = 0 ∧ .svlc = i) ∨
        ((opField c.word).toNat = 7 ∧ nField c.word = 0 ∧ .rbsptrail = i) ∨
        ((opField c.word).toNat = 8 ∧ nField c.word = 0 ∧ .init c.initBase c.initLen = i)) := by
  unfold decode
  by_cases hr : rsvField c.word = 0
  · rw [if_neg (not_not.mpr hr)]
    have hn : Config.nmax = 32 := rfl
    simp only [hr, true_and, decodeCounted, decodePlain]
    generalize (opField c.word).toNat = o
    split
    all_goals try split
    all_goals simp_all
  · rw [if_pos hr]
    simp only [hr, false_and, reduceCtorEq]

end Sys2Proof
end

