-- ==== Sys2Proof/Laws/Golomb.lean ====
section
/-! SUPPORT. What `uvlc()` can do (41_golomb.md R111), in every state and in the stream view under the invariants, and the
arithmetic of the codes (R114 to R116). -/

namespace Sys2Proof.Machine

/-! ### In every state -/

theorem countZeros_advances {left zeros : Nat} {s t : State} {r : Option Nat}
    (h : countZeros left zeros s = .ok (r, t)) : s.Advances t := by
  induction left generalizing zeros s with
  | zero => simp only [countZeros, Except.ok.injEq, Prod.mk.injEq] at h; exact h.2 ▸ State.Advances.refl s
  | succ left ih =>
    unfold countZeros at h
    split at h
    · next b u hu =>
      have hadv := getBits_advances hu
      split at h
      · simp only [Except.ok.injEq, Prod.mk.injEq] at h; exact h.2 ▸ hadv
      · exact hadv.trans (ih h)
    · simp at h

theorem readOffset_advances {zeros : Nat} {s t : State} {r : Option Nat} (h : readOffset zeros s = .ok (r, t)) :
    s.Advances t := by
  unfold readOffset at h
  split at h
  · simp only [Except.ok.injEq, Prod.mk.injEq] at h; exact h.2 ▸ State.Advances.refl s
  · split at h
    · next o u hu => simp only [Except.ok.injEq, Prod.mk.injEq] at h; exact h.2 ▸ getBits_advances hu
    · simp at h

theorem uvlcRead_advances {s t : State} {r : Option Nat} (h : uvlcRead s = .ok (r, t)) : s.Advances t := by
  unfold uvlcRead at h
  split at h
  · next z u hu => exact (countZeros_advances hu).trans (readOffset_advances h)
  · next u hu => simp only [Except.ok.injEq, Prod.mk.injEq] at h; exact h.2 ▸ countZeros_advances hu
  · simp at h

/-! ### Under the invariants -/

/-- One one-bit read under the invariants: the next stream bit, and the cursor past it or at the end. -/
theorem getBit_inv {s : State} (h : s.Inv) :
    ∃ t, getBits 1 s = .ok (s.stream s.pos, t) ∧ s.Advances t ∧ t.Inv ∧ t.pos = min (s.pos + 1) s.bitLen := by
  obtain ⟨t, ht, hti, htp⟩ := getBits_inv h (n := 1) (by omega)
  rw [State.field, fieldOf_one] at ht
  exact ⟨t, ht, getBits_advances ht, hti, htp⟩

/-- Searching from the cursor after one read is searching from the next bit, even where the cursor has stopped at the
end. -/
theorem firstSet_next {s t : State} (hadv : s.Advances t) (hpl : s.pos ≤ s.bitLen)
    (hp : t.pos = min (s.pos + 1) s.bitLen) (n : Nat) : firstSet t.stream n t.pos = firstSet s.stream n (s.pos + 1) := by
  rw [hadv.same.stream, hp]
  rcases Nat.lt_or_ge s.pos s.bitLen with hlt | hge
  · rw [Nat.min_eq_left (by omega)]
  · rw [firstSet_past_end (by omega), firstSet_past_end (by omega)]

/-- The counting loop in the stream view: it stops after the first set bit, or after `left` bits (41_golomb.md R111,
R112). -/
theorem countZeros_inv {s : State} (h : s.Inv) (left zeros : Nat) :
    ∃ t, countZeros left zeros s = .ok ((firstSet s.stream left s.pos).map fun q => zeros + (q - s.pos), t) ∧ t.Inv ∧
      t.pos = ((firstSet s.stream left s.pos).map (· + 1)).getD (min (s.pos + left) s.bitLen) := by
  induction left generalizing s zeros with
  | zero => exact ⟨s, rfl, h, by have := h.pos_le; simp only [firstSet, Option.map_none, Option.getD_none]; omega⟩
  | succ left ih =>
    obtain ⟨u, hu, hadv, hui, hup⟩ := getBit_inv h
    have hpl := h.pos_le
    by_cases hb : s.stream s.pos = 1
    · refine ⟨u, by simp only [countZeros, hu, firstSet, hb, if_true, Option.map_some, Nat.sub_self, Nat.add_zero], hui,
        ?_⟩
      have hlt : s.pos < s.bitLen := by
        rcases Nat.lt_or_ge s.pos s.bitLen with hlt | hge
        · exact hlt
        · rw [stream_past_end hge] at hb; omega
      simp only [firstSet, hb, if_true, Option.map_some, Option.getD_some, hup]
      omega
    · obtain ⟨t, ht, hti, htp⟩ := ih hui (zeros + 1)
      have hnext := firstSet_next hadv hpl hup left
      rw [hnext] at ht htp
      refine ⟨t, ?_, hti, ?_⟩
      · simp only [countZeros, hu, hb, if_false, firstSet, ht]
        congr 2
        cases hf : firstSet s.stream left (s.pos + 1) with
        | none => rfl
        | some q =>
          have hq := (firstSet_eq_some.mp hf).1
          have hqL := firstSet_lt_bitLen hf
          simp only [Option.map_some, Option.some.injEq]
          omega
      · simp only [firstSet, hb, if_false, htp, hadv.same.bitLen]
        cases hf : firstSet s.stream left (s.pos + 1) with
        | none => simp only [Option.map_none, Option.getD_none]; omega
        | some q => rfl

/-- `uvlc()` under the invariants is the decoder of the stream view (41_golomb.md R111). -/
theorem uvlcRead_inv {s : State} (h : s.Inv) :
    ∃ t, uvlcRead s = .ok ((viewUvlc s.stream s.bitLen s.pos).1, t) ∧ t.Inv ∧
      t.pos = (viewUvlc s.stream s.bitLen s.pos).2 := by
  obtain ⟨u, hu, hui, hup⟩ := countZeros_inv h (Config.maxz + 1) 0
  have hadv := countZeros_advances hu
  cases hf : firstSet s.stream (Config.maxz + 1) s.pos with
  | none =>
    simp only [hf, Option.map_none, Option.getD_none] at hu hup
    exact ⟨u, by simp only [uvlcRead, hu, viewUvlc, hf], hui, by simp only [viewUvlc, hf, hup]; rfl⟩
  | some q =>
    simp only [hf, Option.map_some, Option.getD_some, Nat.zero_add] at hu hup
    obtain ⟨hpq, hqn, -, -⟩ := firstSet_eq_some.mp hf
    have hqL := firstSet_lt_bitLen hf
    simp only [maxz_eq] at hqn
    by_cases hz : q - s.pos = 0
    · refine ⟨u, by simp only [uvlcRead, hu, readOffset, hz, if_true, viewUvlc, hf]; simp, hui, ?_⟩
      simp only [viewUvlc, hf, hup]; omega
    · obtain ⟨t, ht, hti, htp⟩ := getBits_inv hui (n := q - s.pos) (by omega)
      rw [hup, hadv.same.field] at ht
      refine ⟨t, ?_, hti, ?_⟩
      · have hpow := Nat.two_pow_pos (q - s.pos)
        simp only [uvlcRead, hu, readOffset, hz, if_false, ht, viewUvlc, hf, Except.ok.injEq, Prod.mk.injEq,
          Option.some.injEq, and_true]
        rw [State.field]
        omega
      · rw [htp, hup, hadv.same.bitLen]
        simp only [viewUvlc, hf]
        omega

/-! ### The codes -/

/-- A UVLC value with `z` leading zeros and offset `o < 2^z` is at most `2^(z+1) - 2` (41_golomb.md R115). -/
theorem viewUvlc_le {S : Nat → Nat} (hS : ∀ k, S k < 2) {L p v q : Nat} (h : viewUvlc S L p = (some v, q)) :
    v ≤ 2097150 := by
  unfold viewUvlc at h
  split at h
  · next r hr =>
    obtain ⟨h1, h2, -, -⟩ := firstSet_eq_some.mp hr
    have hlt := fieldOf_lt hS (r + 1) (r - p)
    have hpow : 2 ^ (r - p) ≤ 2 ^ 20 := Nat.pow_le_pow_right (by omega) (by simp only [maxz_eq] at h2; omega)
    simp only [Prod.mk.injEq, Option.some.injEq] at h
    omega
  · simp at h

/-- The unsigned stand-in of a signed value decodes to it: the inverse of the mapping of 41_golomb.md R114. -/
theorem signed_unsigned (k : Int) : signedOfUnsigned (unsignedOfSigned k) = k := by
  unfold signedOfUnsigned unsignedOfSigned
  split <;> split <;> omega

theorem unsigned_signed (v : Nat) : unsignedOfSigned (signedOfUnsigned v) = v := by
  unfold signedOfUnsigned unsignedOfSigned
  split <;> split <;> omega

theorem two_pow_codeZeros_le (v : Nat) : 2 ^ codeZeros v ≤ v + 1 := Nat.log2_self_le (by omega)

theorem lt_two_pow_codeZeros (v : Nat) : v + 1 < 2 ^ (codeZeros v + 1) := Nat.lt_log2_self

/-- A stream that holds the code of `v` opens with `z` zero bits, a set bit, and the offset `v + 1 - 2^z` (41_golomb.md
R116). -/
theorem holdsCode_parts {S : Nat → Nat} (hS : ∀ k, S k < 2) {p v : Nat} (h : HoldsCode S p v) :
    (∀ k, p ≤ k → k < p + codeZeros v → S k = 0) ∧ S (p + codeZeros v) = 1 ∧
      fieldOf S (p + codeZeros v + 1) (codeZeros v) = v + 1 - 2 ^ codeZeros v := by
  have h1 := two_pow_codeZeros_le v
  have h2 := lt_two_pow_codeZeros v
  unfold HoldsCode codeLength codeNumber at h
  rw [show 2 * codeZeros v + 1 = codeZeros v + (1 + codeZeros v) by omega, fieldOf_add, fieldOf_add, fieldOf_one] at h
  have hbit := hS (p + codeZeros v)
  have hoffset := fieldOf_lt hS (p + codeZeros v + 1) (codeZeros v)
  rw [pow_succ] at h2
  rw [pow_add, pow_one] at h
  have hzero : fieldOf S p (codeZeros v) = 0 := by
    rcases Nat.eq_zero_or_pos (fieldOf S p (codeZeros v)) with h0 | hpos
    · exact h0
    · have := Nat.mul_le_mul_right (2 * 2 ^ codeZeros v) hpos
      omega
  rw [hzero, Nat.zero_mul, Nat.zero_add] at h
  have hone : S (p + codeZeros v) = 1 := by
    rcases Nat.lt_or_ge (S (p + codeZeros v)) 1 with h0 | h0
    · rw [Nat.lt_one_iff.mp h0] at h; omega
    · omega
  refine ⟨eq_zero_of_fieldOf_eq_zero hzero, hone, ?_⟩
  rw [hone] at h
  omega

/-- The decoder of the stream view inverts the encoder: it returns `v` and moves past the `2z + 1` bits of its code
(41_golomb.md R116). -/
theorem viewUvlc_of_holdsCode {S : Nat → Nat} (hS : ∀ k, S k < 2) {L p v : Nat} (hv : v ≤ 2097150)
    (h : HoldsCode S p v) : viewUvlc S L p = (some v, min (p + codeLength v) L) := by
  obtain ⟨hzero, hone, hoffset⟩ := holdsCode_parts hS h
  have h1 := two_pow_codeZeros_le v
  have hz : codeZeros v ≤ 20 := by
    by_contra hgt
    have := Nat.pow_le_pow_right (n := 2) (by omega) (show 21 ≤ codeZeros v by omega)
    omega
  have hpos := Nat.two_pow_pos (codeZeros v)
  have hfirst : firstSet S (Config.maxz + 1) p = some (p + codeZeros v) :=
    firstSet_eq_some.mpr ⟨by omega, by simp only [maxz_eq]; omega, hone, fun k hk hlt => by rw [hzero k hk hlt]; omega⟩
  simp only [viewUvlc, hfirst, Nat.add_sub_cancel_left, hoffset, codeLength, Prod.mk.injEq, Option.some.injEq]
  omega

end Sys2Proof.Machine
end

