-- ==== Sys2Proof/Laws/Trailing.lean ====
section
/-! SUPPORT. What the trailing-bit check can do (42_trailing_bits.md R125 to R127), in every state and in the stream view
under the invariants. -/

namespace Sys2Proof.Machine

theorem trailingZeros_advances {k : Nat} {s t : State} {r : Bool} (h : trailingZeros k s = .ok (r, t)) :
    s.Advances t := by
  induction k generalizing s with
  | zero =>
    unfold trailingZeros at h
    split at h
    · simp only [Except.ok.injEq, Prod.mk.injEq] at h; exact h.2 ▸ State.Advances.refl s
    · simp at h
  | succ k ih =>
    unfold trailingZeros at h
    split at h
    · simp only [Except.ok.injEq, Prod.mk.injEq] at h; exact h.2 ▸ State.Advances.refl s
    · split at h
      · next b u hu =>
        have hadv := getBits_advances hu
        split at h
        · simp only [Except.ok.injEq, Prod.mk.injEq] at h; exact h.2 ▸ hadv
        · exact hadv.trans (ih h)
      · simp at h

theorem trailingCheck_advances {s t : State} {r : Bool} (h : trailingCheck s = .ok (r, t)) : s.Advances t := by
  unfold trailingCheck at h
  split at h
  · next b u hu =>
    have hadv := getBits_advances hu
    split at h
    · simp only [Except.ok.injEq, Prod.mk.injEq] at h; exact h.2 ▸ hadv
    · exact hadv.trans (trailingZeros_advances h)
  · simp at h

/-- Under the invariants the bits left are those from the cursor to the end of the buffer. -/
theorem bitsLeft_inv {s : State} (h : s.Inv) : s.bitsLeft = s.bitLen - s.pos := by
  have h1 := h.pos_add_cnt
  have h2 := h.off_le
  have hL : s.bitLen = 8 * s.len.toNat := rfl
  unfold State.bitsLeft
  omega

/-- The loop of RBSPTRAIL in the stream view: it stops after the first set bit, or at the end of the buffer
(42_trailing_bits.md R126). -/
theorem trailingZeros_inv {s : State} (h : s.Inv) {k : Nat} (hk : s.bitLen - s.pos ≤ k) :
    ∃ t, trailingZeros k s = .ok ((firstSet s.stream (s.bitLen - s.pos) s.pos).isNone, t) ∧ t.Inv ∧
      t.pos = ((firstSet s.stream (s.bitLen - s.pos) s.pos).map (· + 1)).getD s.bitLen := by
  induction k generalizing s with
  | zero =>
    have hend : s.pos = s.bitLen := by have := h.pos_le; omega
    have hx := h.exhausted_iff.mpr hend
    exact ⟨s, by simp only [trailingZeros, hx, if_true, hend, Nat.sub_self, firstSet, Option.isNone_none], h,
      by simp only [hend, Nat.sub_self, firstSet, Option.map_none, Option.getD_none]⟩
  | succ k ih =>
    by_cases hend : s.pos = s.bitLen
    · have hx := h.exhausted_iff.mpr hend
      exact ⟨s, by simp only [trailingZeros, hx, if_true, hend, Nat.sub_self, firstSet, Option.isNone_none], h,
        by simp only [hend, Nat.sub_self, firstSet, Option.map_none, Option.getD_none]⟩
    · have hpl := h.pos_le
      have hx : ¬ s.exhausted = true := fun hx => hend (h.exhausted_iff.mp hx)
      obtain ⟨u, hu, hadv, hui, hup⟩ := getBit_inv h
      have hn : s.bitLen - s.pos = (s.bitLen - (s.pos + 1)) + 1 := by omega
      by_cases hb : s.stream s.pos = 1
      · refine ⟨u, ?_, hui, ?_⟩
        · simp only [trailingZeros, hx, hu, hb, hn, firstSet, if_true]; rfl
        · simp only [hn, firstSet, hb, if_true, Option.map_some, Option.getD_some, hup]; omega
      · have hup' : u.pos = s.pos + 1 := by omega
        have hL := hadv.same.bitLen
        obtain ⟨t, ht, hti, htp⟩ := ih hui (by omega)
        rw [hadv.same.stream, hL, hup'] at ht htp
        refine ⟨t, ?_, hti, ?_⟩
        · simp only [trailingZeros, hx, hu, hb, if_false, ht, hn, firstSet]; simp
        · simp only [hn, firstSet, hb, if_false, htp]

/-- The trailing-bit check under the invariants is that of the stream view (42_trailing_bits.md R127). -/
theorem trailingCheck_inv {s : State} (h : s.Inv) :
    ∃ t, trailingCheck s = .ok ((viewTrailing s.stream s.bitLen s.pos).1, t) ∧ t.Inv ∧
      t.pos = (viewTrailing s.stream s.bitLen s.pos).2 := by
  obtain ⟨u, hu, hadv, hui, hup⟩ := getBit_inv h
  by_cases hb : s.stream s.pos = 0
  · exact ⟨u, by simp only [trailingCheck, hu, viewTrailing, hb, if_true], hui,
      by simp only [viewTrailing, hb, if_true, hup]⟩
  · have hlt : s.pos < s.bitLen := by
      rcases Nat.lt_or_ge s.pos s.bitLen with hlt | hge
      · exact hlt
      · exact absurd (stream_past_end hge) hb
    have hup' : u.pos = s.pos + 1 := by omega
    have hL := hadv.same.bitLen
    obtain ⟨t, ht, hti, htp⟩ := trailingZeros_inv hui (k := u.bitsLeft) (by rw [bitsLeft_inv hui])
    rw [hadv.same.stream, hL, hup'] at ht htp
    refine ⟨t, ?_, hti, ?_⟩
    · simp only [trailingCheck, hu, hb, if_false, ht, viewTrailing]
      cases firstSet s.stream (s.bitLen - (s.pos + 1)) (s.pos + 1) <;> rfl
    · rw [htp]
      simp only [viewTrailing, hb, if_false]
      cases firstSet s.stream (s.bitLen - (s.pos + 1)) (s.pos + 1) <;> rfl

end Sys2Proof.Machine
end

