-- ==== Sys2Proof/Laws/Run.lean ====
section
/-! SUPPORT. Runs of the host's machine, one step at a time, and what a step takes. -/

namespace Sys2Proof.Machine

theorem run_zero (s : State) : Sys2Proof.core.run 0 s = .next s := rfl

/-- The first step of a run of any machine. -/
theorem core_run_succ (M : Host.Core) (k : Nat) (s t : M.State) (h : M.step s = .next t) :
    M.run (k + 1) s = M.run k t := by
  rw [Host.Core.run, h]

/-- A run of any machine that answers a state has a first step that answers one. -/
theorem core_run_succ_eq_next (M : Host.Core) (k : Nat) (s t : M.State) (h : M.run (k + 1) s = .next t) :
    ∃ u, M.step s = .next u ∧ M.run k u = .next t := by
  rw [Host.Core.run] at h
  cases hs : M.step s with
  | next u => rw [hs] at h; exact ⟨u, rfl, h⟩
  | fault r => rw [hs] at h; cases h
  | refused r => rw [hs] at h; cases h

theorem run_succ_of_next {s t : State} (h : step s = .next t) (k : Nat) :
    Sys2Proof.core.run (k + 1) s = Sys2Proof.core.run k t := core_run_succ Sys2Proof.core k s t h

/-- A run of `k + 1` steps that answers a state takes a first step and then `k` more. -/
theorem run_succ_eq_next {k : Nat} {s t : State} (h : Sys2Proof.core.run (k + 1) s = .next t) :
    ∃ u, step s = .next u ∧ Sys2Proof.core.run k u = .next t := core_run_succ_eq_next Sys2Proof.core k s t h

/-- A step with a command ahead takes it off the list and runs it. -/
theorem step_of_commands {s : State} {c : Command} {rest : List Command} (h : s.commands = c :: rest) :
    step s = runCommand c { s with commands := rest } := by
  simp only [step, State.takeCommand, h]

/-- A step with no command ahead changes nothing (log entry 2). -/
theorem step_of_no_command {s : State} (h : s.commands = []) : step s = .next s := by
  simp only [step, State.takeCommand, h]

/-- What `finish` answers, said once. -/
theorem finish_eq_next {α : Type} {r : Except Fault (α × State)} {k : α → State → State} {t : State} :
    finish r k = .next t ↔ ∃ a u, r = .ok (a, u) ∧ t = k a u := by
  unfold finish
  split
  · next a u => simp [eq_comm]
  · simp

/-- What `withCount` answers, said once: the command's own outcome for a legal bit count, else `(ILLEGAL, 0)`. -/
theorem withCount_eq_next {n : BitCount} {s t : State} {k : Nat → Host.Outcome State Fault Refusal} :
    withCount n s k = .next t ↔ (n.toNat ≤ 32 ∧ k n.toNat = .next t) ∨ (32 < n.toNat ∧ t = s.respondIllegal) := by
  have hn : Config.nmax = 32 := rfl
  unfold withCount
  split
  · constructor
    · intro h; exact .inl ⟨by omega, h⟩
    · rintro (h | h)
      · exact h.2
      · omega
  · constructor
    · intro h; cases h; exact .inr ⟨by omega, rfl⟩
    · rintro (h | h)
      · omega
      · rw [h.2]

end Sys2Proof.Machine
end

