-- ==== Sys2Proof/Tests/Slice0.lean ====
section
/-! SUPPORT. The model's own tests. Expected results are the vectors of 95_test_vectors.md, named in each comment; the
witnesses at the end show that the hypotheses of each statement can be met. -/

namespace Sys2Proof.Tests

open Sys2Proof Sys2Proof.Machine

/-! ### Helpers -/

/-- A state after `INIT base, len` over the bytes `bs` placed at `a`. -/
def placed (a : Addr) (bs : List Byte) (b : Addr) (l : Offset) : State := (State.reset.hostPlace a bs).installCursor b l

/-- The state a command gives, if it gives one. -/
def after (o : Host.Outcome State Fault Refusal) : Option State :=
  match o with
  | .next s => some s
  | _ => none

/-- The columns `off / acc / cnt / pos` of the vectors. -/
def columns (s : State) : Nat × Nat × Nat × Nat := (s.off.toNat, s.acc.toNat, s.cnt.toNat, s.pos)

/-- What a command does from `s`: the responses given, the columns, and the addresses read. -/
def outcome (i : Instr) (s : State) : Option (List (Status × Nat) × (Nat × Nat × Nat × Nat) × List Nat) :=
  (after (exec i { s with responses := [], reads := [] })).map fun t =>
    (t.responses.map fun r => (r.status, r.value.toNat), columns t, t.reads)

/-- The buffer of the vectors V-A, before its first command. -/
def bufferA : State := placed 0 [0xDE, 0xAD, 0xBE, 0xEF, 0x01, 0x23, 0x45, 0x67, 0x89, 0xAB, 0xCD, 0xEF] 0 12

/-- The state after V-A1. -/
def afterA1 : State := { bufferA with off := 8, acc := 0xEADBEEF012345670, cnt := 60 }

/-- The buffer of V-B before its first command, and with its byte read ahead. -/
def bufferB : State := placed 0 [0xA5] 0 1

def readAheadB : State := { bufferB with off := 1, acc := 0xA500000000000000, cnt := 8 }

/-- The buffer of V-G6, before its first command. -/
def bufferG6 : State := placed 0 [0, 0, 0x0D, 0x5E, 0x6F, 0, 0, 3] 0 8

/-- The state after V-G6. -/
def afterG6 : State := { bufferG6 with off := 8, acc := 0x0000060000000000, cnt := 23 }

/-- The state after V-G1d: the buffer of V-G1 at `pos = 12`. -/
def afterG1d : State :=
  { placed 0 [0xA6, 0x42, 0x98, 0xE2, 0x04, 0x8A] 0 6 with off := 6, acc := 0x298E2048A0000000, cnt := 36 }

/-- The buffer of V-B, exhausted (after V-B3). -/
def exhaustedB : State := { placed 0 [0xA5] 0 1 with off := 1 }

/-! ### Parameters -/

/-- 00_scope.md R6: the constraints the values must keep, as its last paragraph lists them. -/
theorem test_parameter_constraints : Config.fill = Config.accw - 8 ∧ Config.nmax ≤ Config.fill + 1 ∧
    Config.maxz ≤ Config.nmax ∧ Config.maxz ≤ 31 ∧ 8 ≤ Config.addrw ∧ Config.offw = Config.addrw ∧
    2 ^ (Config.maxz + 1) - 2 < 2 ^ Config.valw ∧ 2 ^ Config.maxz - 1 < 2 ^ (Config.valw - 1) := by decide

/-! ### Well-formedness: an ill-formed term for each check -/

theorem test_getbits_33_refused : ¬ (Instr.getbits 33).WellFormed := by decide
theorem test_peekbits_63_refused : ¬ (Instr.peekbits 63).WellFormed := by decide
theorem test_skipbits_33_refused : ¬ (Instr.skipbits 33).WellFormed := by decide
theorem test_getbits_32_accepted : (Instr.getbits 32).WellFormed := by decide

/-! ### Decoding: words written out from the format of 30_encoding.md R71 -/

theorem test_decode_getbits : decode ⟨0b0001000000100000, 1, 2⟩ = .ok (.getbits 32) := by decide
theorem test_decode_peekbits : decode ⟨0b0010000000001000, 1, 2⟩ = .ok (.peekbits 8) := by decide
theorem test_decode_skipbits : decode ⟨0b0011000000000011, 1, 2⟩ = .ok (.skipbits 3) := by decide
theorem test_decode_align : decode ⟨0b0100000000000000, 1, 2⟩ = .ok .align := by decide
theorem test_decode_uvlc : decode ⟨0b0101000000000000, 1, 2⟩ = .ok .uvlc := by decide
theorem test_decode_svlc : decode ⟨0b0110000000000000, 1, 2⟩ = .ok .svlc := by decide
theorem test_decode_rbsptrail : decode ⟨0b0111000000000000, 1, 2⟩ = .ok .rbsptrail := by decide
theorem test_decode_init : decode ⟨0b1000000000000000, 1, 2⟩ = .ok (.init 1 2) := by decide

/-- V-X1 to V-X8: why each word is illegal. -/
theorem test_decode_illegal :
    decode ⟨0x0000, 0, 0⟩ = .error .reservedOpcode ∧ decode ⟨0x1021, 0, 0⟩ = .error .countTooLarge ∧
      decode ⟨0x203F, 0, 0⟩ = .error .countTooLarge ∧ decode ⟨0x1048, 0, 0⟩ = .error .reservedBits ∧
      decode ⟨0x4001, 0, 0⟩ = .error .operandNotZero ∧ decode ⟨0x5020, 0, 0⟩ = .error .operandNotZero ∧
      decode ⟨0x9000, 0, 0⟩ = .error .reservedOpcode ∧ decode ⟨0xFFFF, 0, 0⟩ = .error .reservedBits := by decide

/-- The words of the table in 30_encoding.md R74. -/
theorem test_encode : (encode (.getbits 4)).word = 0x1004 ∧ (encode (.skipbits 3)).word = 0x3003 ∧
    (encode .rbsptrail).word = 0x7000 ∧ encode (.init 0x1000 39) = ⟨0x8000, 0x1000, 39⟩ := by decide

theorem test_table_word : decodeTableWord 16 0x2008 = some (.peekbits 8) ∧ decodeTableWord 16 0x9000 = none := by decide

/-- The first step after reset runs the word presented: V-C1. -/
theorem test_fetch_word : (after (step (State.reset.withFetchWord 16 0x1020))).map (·.responses) = some [⟨.ok, 0⟩] := by
  decide

/-! ### The commands -/

/-- V-A1: a refill of eight bytes. -/
theorem test_getbits_refill : outcome (.getbits 4) bufferA =
    some ([(.ok, 0xD)], (8, 0xEADBEEF012345670, 60, 4), [0, 1, 2, 3, 4, 5, 6, 7]) := by decide

/-- V-A11: the last four bytes, with 16 bits buffered. -/
theorem test_getbits_to_end :
    outcome (.getbits 32) { bufferA with off := 8, acc := 0x4567000000000000, cnt := 16 } =
      some ([(.ok, 0x456789AB)], (12, 0xCDEF000000000000, 16, 80), [8, 9, 10, 11]) := by decide

/-- V-B1: zero-fill past the end. -/
theorem test_peekbits_zero_fill : outcome (.peekbits 16) (placed 0 [0xA5] 0 1) =
    some ([(.ok, 0xA500)], (1, 0xA500000000000000, 8, 0), [0]) := by decide

/-- V-A4. -/
theorem test_skipbits : outcome (.skipbits 3) { bufferA with off := 8, acc := 0xDBEEF01234567000, cnt := 52 } =
    some ([(.ok, 0)], (8, 0xDF778091A2B38000, 49, 15), []) := by decide

/-- V-A5. -/
theorem test_align : outcome .align { bufferA with off := 8, acc := 0xDF778091A2B38000, cnt := 49 } =
    some ([(.ok, 0)], (8, 0xBEEF012345670000, 48, 16), []) := by decide

/-- V-G6: exactly 20 leading zeros. -/
theorem test_uvlc_twenty_zeros : outcome .uvlc bufferG6 =
    some ([(.ok, 0x1ABCDD)], (8, 0x0000060000000000, 23, 41), [0, 1, 2, 3, 4, 5, 6, 7]) := by decide

/-- V-G7: the 21st zero ends the command; the value of the response is free. -/
theorem test_uvlc_error : (after (exec .uvlc afterG6)).map (fun t => (columns t, t.responses.map (·.status), t.draws)) =
    some ((8, 0xC000000000000000, 2, 62), [.golombErr], 1) := by decide

/-- V-G2a. -/
theorem test_svlc_negative : outcome .svlc afterG1d =
    some ([(.ok, 0xFFFFFFFE)], (6, 0x31C4091400000000, 31, 17), []) := by decide

/-- V-G5, last row: the smallest signed value. -/
theorem test_svlc_smallest : (outcome .svlc (placed 0 [0, 0, 0x0F, 0xFF, 0xFF, 0x80] 0 6)).map (·.1) =
    some [(.ok, 0xFFF00001)] := by decide

/-- V-T3: a set bit after the stop bit. -/
theorem test_rbsptrail_false : outcome .rbsptrail (placed 0 [0x80, 0x00, 0x10] 0 3) =
    some ([(.ok, 0)], (3, 0, 4, 20), [0, 1, 2]) := by decide

/-- V-T6: the byte past the window is neither read nor checked. -/
theorem test_rbsptrail_window : outcome .rbsptrail (placed 0 [0xFF, 0xFF, 0x80, 0xFF] 2 1) =
    some ([(.ok, 1)], (1, 0, 0, 8), [2]) := by decide

/-- V-X9: a window that wraps. -/
theorem test_init_wraps : (after (exec (.init 0xFFFFFFFF 2) afterA1)).map (fun t => (columns t, t.len, t.responses)) =
    some ((8, 0xEADBEEF012345670, 60, 4), 12, [⟨.illegal, 0⟩]) := by decide

/-- V-X10: a window that ends at the top of the address space. -/
theorem test_init_top : (after (exec (.init 0xFFFFFFFF 1) afterA1)).map (fun t => (t.base.toNat, t.len.toNat, columns t)) =
    some (0xFFFFFFFF, 1, (0, 0, 0, 0)) := by decide

/-- V-X2: an illegal word changes no register. -/
theorem test_illegal_word :
    (after (step { afterA1 with commands := [⟨0x1021, 0, 0⟩] })).map (fun t => (columns t, t.responses, t.commands)) =
      some ((8, 0xEADBEEF012345670, 60, 4), [⟨.illegal, 0⟩], []) := by decide

/-- 30_encoding.md R81: assembler lines. -/
theorem test_asm : asmLine (.getbits 8) = "getbits 8" ∧ asmLine (.init 0x1000 39) = "init 4096, 39" := by decide

/-! ### Witnesses: the hypotheses of the statements can be met -/

theorem bufferA_inv : bufferA.Inv := installCursor_inv (by decide) (by decide)

theorem afterA1_inv : afterA1.Inv :=
  ⟨by decide, by decide, by decide, by decide, by decide, by decide, by decide, by decide⟩

theorem bufferG6_inv : bufferG6.Inv := installCursor_inv (by decide) (by decide)

theorem afterG6_inv : afterG6.Inv :=
  ⟨by decide, by decide, by decide, by decide, by decide, by decide, by decide, by decide⟩

theorem exhaustedB_inv : exhaustedB.Inv :=
  ⟨by decide, by decide, by decide, by decide, by decide, by decide, by decide, by decide⟩

theorem afterG1d_inv : afterG1d.Inv :=
  ⟨by decide, by decide, by decide, by decide, by decide, by decide, by decide, by decide⟩

theorem witness_StepKeepsInvariants :
    ({ bufferA with commands := [⟨0x1004, 0, 0⟩] } : State).Inv ∧
      ∃ t, step { bufferA with commands := [⟨0x1004, 0, 0⟩] } = .next t :=
  ⟨bufferA_inv.withCommands _, _, rfl⟩

theorem witness_StepFromInvariantsAnswersNext : afterA1.Inv := afterA1_inv

theorem witness_ResetDuringParseEqualsInitZero : afterA1.mem.wf = true := by decide

theorem witness_StepRunsDecodedCommand :
    ({ afterA1 with commands := [⟨0x4000, 0, 0⟩] } : State).commands = [⟨0x4000, 0, 0⟩] ∧
      decode ⟨0x4000, 0, 0⟩ = .ok .align := ⟨rfl, by decide⟩

theorem witness_StepWithoutCommandChangesNothing : afterA1.commands = [] := by decide

/-- One word at an edge of each clause. -/
theorem witness_IllegalWordIsAnsweredAndChangesNothing :
    rsvField 0x1040 ≠ 0 ∧ rsvField 0x1800 ≠ 0 ∧ opField 0x0000 = 0 ∧ 9 ≤ (opField 0x9000).toNat ∧
      9 ≤ (opField 0xF000).toNat ∧ (opField 0x1021).toNat = 1 ∧ 32 < (nField 0x1021).toNat ∧
      (opField 0x303F).toNat = 3 ∧ 32 < (nField 0x303F).toNat ∧ (opField 0x4001).toNat = 4 ∧ nField 0x4001 ≠ 0 ∧
      (opField 0x803F).toNat = 8 ∧ nField 0x803F ≠ 0 ∧
      ({ afterA1 with commands := [⟨0x1021, 0, 0⟩] } : State).commands = [⟨0x1021, 0, 0⟩] := by decide

theorem witness_EncodeThenDecodeIsIdentity : (Instr.getbits 0).WellFormed ∧ (Instr.getbits 32).WellFormed ∧
    (Instr.peekbits 32).WellFormed ∧ (Instr.skipbits 32).WellFormed := by decide

theorem witness_DecodeThenEncodeGivesTheWord : decode ⟨0x3020, 5, 6⟩ = .ok (.skipbits 32) := by decide

theorem witness_GetbitsReadsAndConsumes : afterA1.Inv ∧ (0 : BitCount).toNat ≤ 32 ∧ (32 : BitCount).toNat ≤ 32 :=
  ⟨afterA1_inv, by decide, by decide⟩

theorem witness_PeekbitsReadsWithoutConsuming : bufferA.Inv ∧ (0 : BitCount).toNat ≤ 32 ∧ (32 : BitCount).toNat ≤ 32 :=
  ⟨bufferA_inv, by decide, by decide⟩

theorem witness_SkipbitsConsumesLikeGetbits :
    exhaustedB.Inv ∧ (0 : BitCount).toNat ≤ 32 ∧ (32 : BitCount).toNat ≤ 32 :=
  ⟨exhaustedB_inv, by decide, by decide⟩

theorem witness_AlignMovesToByteBoundary : afterA1.Inv ∧ ∃ t, exec .align afterA1 = .next t := ⟨afterA1_inv, _, rfl⟩

theorem witness_CountAboveThirtyTwoIsIllegal : 32 < (33 : BitCount).toNat ∧ 32 < (63 : BitCount).toNat := by decide

theorem witness_BufferedReadsTouchNoMemory : (32 : BitCount).toNat ≤ 32 ∧ (32 : BitCount).toNat ≤ afterA1.cnt.toNat ∧
    (0 : BitCount).toNat ≤ bufferA.cnt.toNat := by decide

theorem witness_ShortRequestPullsWholeBytes : bufferA.Inv ∧ (32 : BitCount).toNat ≤ 32 ∧
    bufferA.cnt.toNat < (32 : BitCount).toNat ∧ bufferA.cnt.toNat < (1 : BitCount).toNat :=
  ⟨bufferA_inv, by decide, by decide, by decide⟩

theorem witness_ConsecutiveReadsConcatenate : afterA1.Inv ∧ (32 : BitCount).toNat + (0 : BitCount).toNat ≤ 32 ∧
    (13 : BitCount).toNat + (19 : BitCount).toNat ≤ 32 := ⟨afterA1_inv, by decide, by decide⟩

theorem witness_PeekThenGetReturnTheSameValue : bufferA.Inv ∧ (32 : BitCount).toNat ≤ 32 := ⟨bufferA_inv, by decide⟩

theorem witness_AlignedByteReadReturnsTheByte :
    bufferA.Inv ∧ bufferA.pos % 8 = 0 ∧ bufferA.pos < 8 * bufferA.len.toNat := ⟨bufferA_inv, by decide, by decide⟩

theorem witness_EndOfBufferAnswersAndStays :
    exhaustedB.Inv ∧ exhaustedB.pos = 8 * exhaustedB.len.toNat ∧ (32 : BitCount).toNat ≤ 32 :=
  ⟨exhaustedB_inv, by decide, by decide⟩

/-- `z = 20`, the longest run. -/
theorem witness_UvlcDecodesOneCode : bufferG6.Inv ∧ (∀ k, k < 20 → bufferG6.stream (bufferG6.pos + k) = 0) ∧
    bufferG6.stream (bufferG6.pos + 20) = 1 := ⟨bufferG6_inv, by decide, by decide⟩

/-- `z = 0`, the shortest. -/
theorem witness_UvlcDecodesOneCode_shortest : bufferA.Inv ∧ bufferA.stream (bufferA.pos + 0) = 1 :=
  ⟨bufferA_inv, by decide⟩

theorem witness_UvlcReportsGolombErr : afterG6.Inv ∧ ∀ k, k < 21 → afterG6.stream (afterG6.pos + k) = 0 :=
  ⟨afterG6_inv, by decide⟩

theorem witness_SvlcDecodesOneCode : afterG1d.Inv ∧ (∀ k, k < 2 → afterG1d.stream (afterG1d.pos + k) = 0) ∧
    afterG1d.stream (afterG1d.pos + 2) = 1 ∧ 4 = 2 ^ 2 - 1 + afterG1d.field (afterG1d.pos + 2 + 1) 2 :=
  ⟨afterG1d_inv, by decide, by decide, by decide⟩

theorem witness_SvlcReportsGolombErr : exhaustedB.Inv ∧ ∀ k, k < 21 → exhaustedB.stream (exhaustedB.pos + k) = 0 :=
  ⟨exhaustedB_inv, by decide⟩

theorem witness_SvlcHasTheEffectsOfUvlc :
    (∃ t, exec .uvlc afterG1d = .next t) ∧ ∃ t, exec .uvlc afterG6 = .next t := ⟨⟨_, rfl⟩, _, rfl⟩

theorem witness_GolombValuesStayInRange :
    (∃ t, exec .uvlc afterG1d = .next t ∧ t.responses = afterG1d.responses ++ [⟨.ok, 4⟩]) ∧
      ∃ t, exec .svlc afterG1d = .next t ∧ t.responses = afterG1d.responses ++ [⟨.ok, 0xFFFFFFFE⟩] :=
  ⟨⟨_, rfl, by decide⟩, _, rfl, by decide⟩

theorem witness_SignedMappingIsTheZigzag : 1 ≤ (1 : Nat) ∧ signedOfUnsigned 5 = signedOfUnsigned 5 ∧ (0 : Int) < 1 ∧
    (-1 : Int) < 0 := by decide

/-- The longest code, of 2097150 (V-G4, last row). -/
def bufferLongest : State := placed 0 [0, 0, 0x0F, 0xFF, 0xFF, 0x80] 0 6

theorem bufferLongest_inv : bufferLongest.Inv := installCursor_inv (by decide) (by decide)

theorem witness_UvlcInvertsTheEncoder : bufferLongest.Inv ∧
    HoldsCode bufferLongest.stream bufferLongest.pos 2097150 ∧
    bufferLongest.pos + codeLength 2097150 ≤ 8 * bufferLongest.len.toNat :=
  ⟨bufferLongest_inv, by unfold HoldsCode; decide, by decide⟩

theorem witness_SvlcInvertsTheEncoder : bufferLongest.Inv ∧
    HoldsCode bufferLongest.stream bufferLongest.pos (unsignedOfSigned (-1048575)) ∧
    bufferLongest.pos + codeLength (unsignedOfSigned (-1048575)) ≤ 8 * bufferLongest.len.toNat :=
  ⟨bufferLongest_inv, by unfold HoldsCode; decide, by decide⟩

/-- One state for each of the three results: accepted (V-T6), stop bit unset (V-T4), a later bit set (V-T3). -/
theorem witness_TrailingCheckAcceptsStopBitThenZeros :
    (placed 0 [0xFF, 0xFF, 0x80, 0xFF] 2 1).Inv ∧ (placed 0 [0x40] 0 1).Inv ∧ (placed 0 [0x40] 0 1).stream 0 = 0 ∧
      (placed 0 [0x80, 0, 0x10] 0 3).Inv ∧ (placed 0 [0x80, 0, 0x10] 0 3).stream 0 = 1 ∧
      (placed 0 [0x80, 0, 0x10] 0 3).stream 19 = 1 ∧
      ∀ k, k < 19 → 0 < k → (placed 0 [0x80, 0, 0x10] 0 3).stream k = 0 :=
  ⟨installCursor_inv (by decide) (by decide), installCursor_inv (by decide) (by decide), by decide,
    installCursor_inv (by decide) (by decide), by decide, by decide, by decide⟩

theorem witness_InitStartsAFreshCursorOrRefuses :
    (0xFFFFFFFF : Addr).toNat + (1 : Offset).toNat ≤ 2 ^ 32 ∧ 2 ^ 32 < (0xFFFFFFFF : Addr).toNat + (2 : Offset).toNat := by
  decide

theorem witness_OnlyInitMovesTheWindow :
    (∃ t, exec .svlc afterG1d = .next t) ∧ ∀ b l, Instr.svlc ≠ .init b l := ⟨⟨_, rfl⟩, by simp⟩

theorem witness_FixedWidthFrame : (∃ t, exec (.getbits 4) bufferA = .next t) ∧
    (∃ t, exec (.peekbits 4) bufferA = .next t) ∧ ∃ t, exec (.skipbits 40) bufferA = .next t :=
  ⟨⟨_, rfl⟩, ⟨_, rfl⟩, _, rfl⟩

theorem witness_GolombFrame : (∃ t, exec .uvlc bufferG6 = .next t) ∧ ∃ t, exec .svlc afterG6 = .next t :=
  ⟨⟨_, rfl⟩, _, rfl⟩

theorem witness_TrailingFrame : ∃ t, exec .rbsptrail exhaustedB = .next t := ⟨_, rfl⟩

theorem witness_AlignAndInitFrame : (∃ t, exec .align afterA1 = .next t) ∧ ∃ t, exec (.init 7 9) afterA1 = .next t :=
  ⟨⟨_, rfl⟩, _, rfl⟩

theorem witness_NoStepWritesMemory : ∃ t, step { afterA1 with commands := [⟨0x7000, 0, 0⟩] } = .next t := ⟨_, rfl⟩

theorem witness_EveryCommandGetsOneResponse :
    ({ afterA1 with commands := [⟨0, 0, 0⟩] } : State).commands = [⟨0, 0, 0⟩] ∧
      (∃ t, step { afterA1 with commands := [⟨0, 0, 0⟩] } = .next t) ∧
      ({ afterA1 with commands := [⟨0, 0, 0⟩] } : State).Inv := ⟨rfl, ⟨_, rfl⟩, afterA1_inv.withCommands _⟩

/-- One state for each error status. -/
theorem witness_ErrorStatusesComeFromTheirCommandsAlone :
    (∃ t, exec .uvlc afterG6 = .next t ∧
      t.responses = afterG6.responses ++ [⟨.golombErr, Config.golombErrValue 0⟩]) ∧
    ∃ t, exec (.init 0xFFFFFFFF 2) afterA1 = .next t ∧ t.responses = afterA1.responses ++ [⟨.illegal, 0⟩] :=
  ⟨⟨_, rfl, rfl⟩, _, rfl, rfl⟩

theorem witness_ReadsStayInsideTheWindow : bufferA.Inv ∧ ∃ t, exec (.getbits 1) bufferA = .next t :=
  ⟨bufferA_inv, _, rfl⟩

theorem witness_ReadsBetweenInitsAreConsecutive :
    (∀ c ∈ ({ bufferA with commands := [⟨0x1004, 0, 0⟩, ⟨0x4000, 0, 0⟩] } : State).commands,
      ∀ b l, decode c ≠ .ok (.init b l)) ∧
    ∃ t, Sys2Proof.core.run 2 ({ bufferA with commands := [⟨0x1004, 0, 0⟩, ⟨0x4000, 0, 0⟩] } : State) = .next t := by
  have h1 : decode ⟨0x1004, 0, 0⟩ = .ok (.getbits 4) := by decide
  have h2 : decode ⟨0x4000, 0, 0⟩ = .ok .align := by decide
  refine ⟨?_, _, rfl⟩
  intro c hc b l
  simp only [List.mem_cons, List.not_mem_nil, or_false] at hc
  rcases hc with rfl | rfl
  · rw [h1]; simp
  · rw [h2]; simp

theorem witness_BytesReadAreBounded : bufferG6.Inv ∧ (∃ t, exec .uvlc bufferG6 = .next t) ∧
    (placed 0 [0x80] 0 1).Inv ∧ ∃ t, exec .rbsptrail (placed 0 [0x80] 0 1) = .next t ∧
      t.responses = (placed 0 [0x80] 0 1).responses ++ [⟨.ok, 1⟩] :=
  ⟨bufferG6_inv, ⟨_, rfl⟩, installCursor_inv (by decide) (by decide), _, rfl, by decide⟩

/-- The first eight bytes, already pulled, may differ. -/
theorem witness_OnlyBytesNotYetPulledMatter :
    (∀ k, k < afterA1.len.toNat → afterA1.off.toNat ≤ k →
      ((afterA1.hostWrite 0 0x55).hostWrite 12 1).mem.read (afterA1.base.toNat + k) =
        afterA1.mem.read (afterA1.base.toNat + k)) ∧
    ((afterA1.hostWrite 0 0x55).hostWrite 12 1).mem ≠ afterA1.mem ∧ ∃ t, exec (.getbits 32) afterA1 = .next t :=
  ⟨by decide, by decide, _, rfl⟩

theorem witness_ExecRefinesTheStreamView : afterG6.Inv ∧ (Instr.svlc).WellFormed ∧ (Instr.peekbits 32).WellFormed :=
  ⟨afterG6_inv, trivial, by decide⟩

theorem readAheadB_inv : readAheadB.Inv :=
  ⟨by decide, by decide, by decide, by decide, by decide, by decide, by decide, by decide⟩

/-- Two states at `pos = 0`, one of which has read ahead. -/
theorem witness_AlikeStatesAnswerAlike : bufferB.Inv ∧ readAheadB.Inv ∧ bufferB.Alike readAheadB :=
  ⟨installCursor_inv (by decide) (by decide), readAheadB_inv, by decide, rfl, rfl, rfl, rfl⟩

theorem witness_CursorMovesForwardAndSaturates :
    bufferA.Inv ∧ (∀ b l, Instr.uvlc ≠ .init b l) ∧ ∃ t, exec .uvlc bufferA = .next t := ⟨bufferA_inv, by simp, _, rfl⟩

/-- A skip of 33 bits, two commands, and of 0 bits, one. -/
theorem witness_SkiplongSkipsAnyDistance :
    ({ afterA1 with commands := program (expand (.skiplong 33)) } : State).Inv ∧
      ({ afterA1 with commands := program (expand (.skiplong 0)) } : State).Inv ∧
      program (expand (.skiplong 33)) = [⟨0x3020, 0, 0⟩, ⟨0x3001, 0, 0⟩] ∧
      program (expand (.skiplong 0)) = [⟨0x3000, 0, 0⟩] :=
  ⟨afterA1_inv.withCommands _, afterA1_inv.withCommands _, by decide, by decide⟩

theorem witness_GetbytesReadsConsecutiveBytes :
    ({ bufferA with commands := program (expand (.getbytes 2)) } : State).Inv ∧
      program (expand (.getbytes 2)) = [⟨0x1008, 0, 0⟩, ⟨0x1008, 0, 0⟩] := ⟨bufferA_inv.withCommands _, by decide⟩

end Sys2Proof.Tests
end

section
/-! ### The reset state (10_state.md R35)

Each register of the reset state, and INIT over the empty window, which puts any state's cursor where a reset puts it. -/

namespace Sys2Proof.Machine

@[simp] theorem reset_base : State.reset.base = 0 := rfl
@[simp] theorem reset_len : State.reset.len = 0 := rfl
@[simp] theorem reset_off : State.reset.off = 0 := rfl
@[simp] theorem reset_acc : State.reset.acc = 0 := rfl
@[simp] theorem reset_cnt : State.reset.cnt = 0 := rfl

/-- No byte is pulled and no bit is buffered, so the bit cursor is at the start (10_state.md R28). -/
@[simp] theorem reset_pos : State.reset.pos = 0 := by simp [State.pos]

/-- The buffer has no byte, so it has no bit (10_state.md R28). -/
@[simp] theorem reset_bitLen : State.reset.bitLen = 0 := by simp [State.bitLen]

/-- A reset of the reset state writes back the registers it holds. -/
@[simp] theorem resetBlock_reset : State.reset.resetBlock = State.reset := rfl

/-- The fresh cursor over the empty window at address 0 is the cursor after a reset. -/
theorem installCursor_zero (s : State) : s.installCursor 0 0 = s.resetBlock := rfl

/-- INIT accepts a window that fits the address space and starts a fresh cursor over it (43_control.md R135). -/
theorem exec_init_of_windowFits {b : Addr} {l : Offset} (s : State) (h : WindowFits b l) :
    exec (.init b l) s = .next ((s.installCursor b l).respond .ok 0) := if_pos h

/-- The empty window at address 0 fits the address space. -/
theorem windowFits_zero : WindowFits 0 0 := by simp [WindowFits]

/-- INIT with both operands 0 does to the registers what a reset does, and answers `OK`. -/
theorem exec_init_zero (s : State) : exec (.init 0 0) s = .next (s.resetBlock.respond .ok 0) := by
  rw [exec_init_of_windowFits s windowFits_zero, installCursor_zero]

/-- Settles O1: the register facts, the two derived numbers, and INIT over the empty window, which leaves the reset
state's registers as they are. -/
theorem resetIsTheEmptyCursor : Obligations.ResetIsTheEmptyCursor := by
  have hinit : exec (.init 0 0) State.reset = .next (State.reset.respond .ok 0) := by
    rw [exec_init_zero, resetBlock_reset]
  exact ⟨reset_base, reset_len, reset_off, reset_acc, reset_cnt, reset_pos, reset_bitLen, hinit⟩

end Sys2Proof.Machine
end

section
/-! ### No command writes memory (20_memory.md R53)

A command either pulls and consumes and then answers, or it rewrites registers alone; neither touches a byte. The two
shapes are said once, for `finish` and `withCount`, and the commands that read bits cite them. -/

namespace Sys2Proof.Machine

/-! #### The shapes of a command -/

/-- A command that pulls and consumes, and whose answer keeps the memory, keeps the memory. -/
theorem finish_keeps_mem {α : Type} {r : Except Fault (α × State)} {k : α → State → State} {s t : State}
    (h : finish r k = .next t) (hread : ∀ a u, r = .ok (a, u) → s.Advances u)
    (hanswer : ∀ a u, (k a u).mem = u.mem) : t.mem = s.mem := by
  obtain ⟨a, u, hr, rfl⟩ := finish_eq_next.mp h
  calc (k a u).mem = u.mem := hanswer a u
    _ = s.mem := (hread a u hr).same.mem

/-- A command with a bit count keeps the memory when it does so for a legal count: an illegal one is only answered
(30_encoding.md R75). -/
theorem withCount_keeps_mem {n : BitCount} {s t : State} {k : Nat → Host.Outcome State Fault Refusal}
    (h : withCount n s k = .next t) (hlegal : k n.toNat = .next t → t.mem = s.mem) : t.mem = s.mem := by
  rcases withCount_eq_next.mp h with ⟨-, hk⟩ | ⟨-, rfl⟩
  · exact hlegal hk
  · exact respondIllegal_mem _

/-- The answer of UVLC is a response, of a value or of the failed read. -/
@[simp] theorem answerUnsigned_mem (r : Option Nat) (s : State) : (answerUnsigned r s).mem = s.mem := by
  cases r with
  | some v => exact respond_mem _ _ _
  | none => exact respondGolombErr_mem _

/-- The answer of SVLC is a response, of a value or of the failed read. -/
@[simp] theorem answerSigned_mem (r : Option Nat) (s : State) : (answerSigned r s).mem = s.mem := by
  cases r with
  | some v => exact respond_mem _ _ _
  | none => exact respondGolombErr_mem _

/-! #### The commands -/

theorem execGetbits_keeps_mem {n : BitCount} {s t : State} (h : execGetbits n s = .next t) : t.mem = s.mem :=
  withCount_keeps_mem h fun hk => finish_keeps_mem hk (fun _ _ => getBits_advances) fun _ _ => respond_mem _ _ _

theorem execPeekbits_keeps_mem {n : BitCount} {s t : State} (h : execPeekbits n s = .next t) : t.mem = s.mem :=
  withCount_keeps_mem h fun hk => finish_keeps_mem hk (fun _ _ => peekBits_advances) fun _ _ => respond_mem _ _ _

theorem execSkipbits_keeps_mem {n : BitCount} {s t : State} (h : execSkipbits n s = .next t) : t.mem = s.mem :=
  withCount_keeps_mem h fun hk => finish_keeps_mem hk (fun _ _ => getBits_advances) fun _ _ => respond_mem _ _ _

/-- ALIGN drops buffered bits and answers. -/
theorem execAlign_keeps_mem {s t : State} (h : execAlign s = .next t) : t.mem = s.mem := by
  cases h
  rw [respond_mem, consume_mem]

theorem execUvlc_keeps_mem {s t : State} (h : execUvlc s = .next t) : t.mem = s.mem :=
  finish_keeps_mem h (fun _ _ => uvlcRead_advances) answerUnsigned_mem

theorem execSvlc_keeps_mem {s t : State} (h : execSvlc s = .next t) : t.mem = s.mem :=
  finish_keeps_mem h (fun _ _ => uvlcRead_advances) answerSigned_mem

theorem execRbsptrail_keeps_mem {s t : State} (h : execRbsptrail s = .next t) : t.mem = s.mem :=
  finish_keeps_mem h (fun _ _ => trailingCheck_advances) fun _ _ => respond_mem _ _ _

/-- INIT writes registers, or refuses its window; the bytes of the window stay (43_control.md R135). -/
theorem execInit_keeps_mem {b : Addr} {l : Offset} {s t : State} (h : execInit b l s = .next t) : t.mem = s.mem := by
  unfold execInit at h
  split at h
  · cases h
    rw [respond_mem, installCursor_mem]
  · cases h
    exact respondIllegal_mem _

/-- An illegal word is answered and nothing else (30_encoding.md R75). -/
theorem execIllegal_keeps_mem {s t : State} (h : execIllegal s = .next t) : t.mem = s.mem := by
  cases h
  exact respondIllegal_mem _

/-! #### Every command, every step -/

theorem exec_keeps_mem {i : Instr} {s t : State} (h : exec i s = .next t) : t.mem = s.mem := by
  cases i with
  | getbits n => exact execGetbits_keeps_mem h
  | peekbits n => exact execPeekbits_keeps_mem h
  | skipbits n => exact execSkipbits_keeps_mem h
  | align => exact execAlign_keeps_mem h
  | uvlc => exact execUvlc_keeps_mem h
  | svlc => exact execSvlc_keeps_mem h
  | rbsptrail => exact execRbsptrail_keeps_mem h
  | init b l => exact execInit_keeps_mem h

theorem runCommand_keeps_mem {c : Command} {s t : State} (h : runCommand c s = .next t) : t.mem = s.mem := by
  unfold runCommand at h
  split at h
  · exact exec_keeps_mem h
  · exact execIllegal_keeps_mem h

/-- Taking a command off the client's list leaves the memory to the command that runs; with none presented the state
stays as it is (log entry 2). -/
theorem step_keeps_mem {s t : State} (h : step s = .next t) : t.mem = s.mem := by
  cases hc : s.commands with
  | nil =>
    rw [step_of_no_command hc] at h
    cases h
    rfl
  | cons c rest =>
    rw [step_of_commands hc] at h
    have hrun : t.mem = ({ s with commands := rest } : State).mem := runCommand_keeps_mem h
    exact hrun

/-- Settles O41: a step keeps the memory as a whole, and so every byte of it. -/
theorem noStepWritesMemory : Obligations.NoStepWritesMemory := by
  intro s t h
  have hmem : t.mem = s.mem := step_keeps_mem h
  exact ⟨hmem, fun a => by rw [hmem]⟩

end Sys2Proof.Machine
end

section
/-! ### An illegal word is answered and not executed (30_encoding.md R75)

A word that decodes has legal fields (R74), so a word of R75 does not decode; and a word that does not decode is answered
`(ILLEGAL, 0)`, whatever the decoder's reason. -/

namespace Sys2Proof

/-- A word that decodes has a zero reserved field and an opcode of 1 to 8, with the bit count that opcode admits
(30_encoding.md R74). -/
theorem fields_of_decode_eq_ok {c : Command} {i : Instr} (h : decode c = .ok i) :
    rsvField c.word = 0 ∧
      ((1 ≤ (opField c.word).toNat ∧ (opField c.word).toNat ≤ 3 ∧ (nField c.word).toNat ≤ 32) ∨
        (4 ≤ (opField c.word).toNat ∧ (opField c.word).toNat ≤ 8 ∧ nField c.word = 0)) := by
  obtain ⟨hrsv, hrow⟩ := decode_eq_ok.mp h
  refine ⟨hrsv, ?_⟩
  rcases hrow with ⟨hop, hn, -⟩ | ⟨hop, hn, -⟩ | ⟨hop, hn, -⟩ | ⟨hop, hn, -⟩ | ⟨hop, hn, -⟩ | ⟨hop, hn, -⟩ |
    ⟨hop, hn, -⟩ | ⟨hop, hn, -⟩ <;> simp [hop, hn]

/-- Each clause of R75 contradicts the legal fields of a word that decodes. -/
theorem decode_ne_ok_of_illegal_fields {c : Command}
    (hill : rsvField c.word ≠ 0 ∨ opField c.word = 0 ∨ 9 ≤ (opField c.word).toNat ∨
      (1 ≤ (opField c.word).toNat ∧ (opField c.word).toNat ≤ 3 ∧ 32 < (nField c.word).toNat) ∨
      (4 ≤ (opField c.word).toNat ∧ (opField c.word).toNat ≤ 8 ∧ nField c.word ≠ 0)) (i : Instr) :
    decode c ≠ .ok i := by
  intro h
  obtain ⟨hrsv, hlegal⟩ := fields_of_decode_eq_ok h
  rcases hill with hreserved | hzero | hhigh | ⟨-, hcounted, hlarge⟩ | ⟨hplain, -, hoperand⟩
  · exact hreserved hrsv
  · have hop : (opField c.word).toNat = 0 := by rw [hzero]; rfl
    omega
  · omega
  · omega
  · rcases hlegal with ⟨-, hcounted, -⟩ | ⟨-, -, hn⟩
    · omega
    · exact hoperand hn

end Sys2Proof

namespace Sys2Proof.Machine

/-- A word that does not decode is answered and not executed (60_exceptions.md R152). -/
theorem runCommand_of_decode_ne_ok {c : Command} (h : ∀ i, decode c ≠ .ok i) (s : State) :
    runCommand c s = .next s.respondIllegal := by
  unfold runCommand
  split
  · next i hi => exact absurd hi (h i)
  · rfl

/-- Settles O8: no clause of R75 leaves a word that decodes, and the answer `(ILLEGAL, 0)` is all that a word which does
not decode adds to the state. -/
theorem illegalWordIsAnsweredAndChangesNothing : Obligations.IllegalWordIsAnsweredAndChangesNothing := by
  intro s c rest hcommands hill
  calc step s = runCommand c { s with commands := rest } := step_of_commands hcommands
    _ = .next ({ s with commands := rest } : State).respondIllegal :=
      runCommand_of_decode_ne_ok (decode_ne_ok_of_illegal_fields hill) _

end Sys2Proof.Machine
end

section
/-! ### ALIGN (40_fixed_width.md R97)

The dropped bits are the `cnt mod 8` buffered ones above a whole number of bytes, so they are always there to drop, and
what is left is a whole number of bytes: a second ALIGN drops nothing. -/

namespace Sys2Proof.Machine

/-! #### Consuming buffered bits, in every state -/

/-- Consuming bits that are buffered shifts them out and counts them down; nothing saturates (40_fixed_width.md R92). -/
theorem consume_of_le {s : State} {n : Nat} (h : n ≤ s.cnt.toNat) :
    s.consume n = { s with acc := s.acc <<< n, cnt := BitVec.ofNat 7 (s.cnt.toNat - n) } := by
  rw [State.consume, Nat.min_eq_left h]

@[simp] theorem consume_zero (s : State) : s.consume 0 = s := by
  rw [consume_of_le (Nat.zero_le _), BitVec.shiftLeft_zero, Nat.sub_zero, BitVec.ofNat_toNat, BitVec.setWidth_eq]

/-- What ALIGN leaves buffered is a whole number of bytes. -/
theorem consume_cnt_mod_eight (s : State) : (s.consume (s.cnt.toNat % 8)).cnt.toNat % 8 = 0 := by
  have hcnt := s.cnt_lt
  rw [consume_of_le (Nat.mod_le _ _)]
  simp only [BitVec.toNat_ofNat]
  omega

/-! #### The command -/

/-- ALIGN always completes: it drops `cnt mod 8` bits and answers. -/
theorem exec_align (s : State) : exec .align s = .next ((s.consume (s.cnt.toNat % 8)).respond .ok 0) := rfl

/-- With a whole number of bytes buffered ALIGN only answers. -/
theorem exec_align_of_cnt_mod_eq_zero {s : State} (h : s.cnt.toNat % 8 = 0) :
    exec .align s = .next (s.respond .ok 0) := by
  rw [exec_align, h, consume_zero]

/-- Settles O17: the registers from `consume_of_le`, the second ALIGN from the whole bytes the first one leaves, and the
cursor from `align_inv`, whose state meets I6. -/
theorem alignMovesToByteBoundary : Obligations.AlignMovesToByteBoundary := by
  intro s
  refine ⟨?next, fun t ht => ?_⟩
  case next =>
    rw [exec_align, consume_of_le (Nat.mod_le _ _)]
    rfl
  rw [exec_align] at ht
  cases ht
  refine ⟨exec_align_of_cnt_mod_eq_zero (consume_cnt_mod_eight s), fun hs => ?_⟩
  obtain ⟨hinv, hpos⟩ := align_inv hs
  have hboundary : 8 * ((s.pos + 7) / 8) = s.pos + (8 - s.pos % 8) % 8 := by omega
  rw [respond_pos]
  exact ⟨hpos, hinv.pos_le, hpos.trans hboundary⟩

end Sys2Proof.Machine
end

section
/-! ### The signed mapping of SVLC (41_golomb.md R114)

The mapping on an even and on an odd value, the formula with the sign and the ceiling, and the inverse: that
`unsignedOfSigned` undoes the mapping on both sides is `unsigned_signed` and `signed_unsigned`. -/

namespace Sys2Proof.Machine

/-! #### The mapping -/

/-- An even value stands for a number that is not positive. -/
theorem signedOfUnsigned_two_mul (m : Nat) : signedOfUnsigned (2 * m) = -(m : Int) := by
  simp [signedOfUnsigned]

/-- An odd value stands for a positive number. -/
theorem signedOfUnsigned_two_mul_add_one (m : Nat) : signedOfUnsigned (2 * m + 1) = (m : Int) + 1 := by
  have hceil : (2 * m + 1 + 1) / 2 = m + 1 := by omega
  simp [signedOfUnsigned, hceil]

/-- The sign is that of the parity and the magnitude is `ceil(v / 2)`; at `v = 0`, which the rule lists apart, the
magnitude is 0. -/
theorem signedOfUnsigned_eq_sign_mul_ceil (v : Nat) :
    signedOfUnsigned v = (-1) ^ (v + 1) * (((v + 1) / 2 : Nat) : Int) := by
  obtain ⟨m, rfl | rfl⟩ := Nat.even_or_odd' v
  · have hsign : (-1 : Int) ^ (2 * m + 1) = -1 := (odd_two_mul_add_one m).neg_one_pow
    have hceil : (2 * m + 1) / 2 = m := by omega
    rw [signedOfUnsigned_two_mul, hsign, hceil, neg_one_mul]
  · have hsign : (-1 : Int) ^ (2 * m + 1 + 1) = 1 := (odd_two_mul_add_one m).add_one.neg_one_pow
    have hceil : (2 * m + 1 + 1) / 2 = m + 1 := by omega
    rw [signedOfUnsigned_two_mul_add_one, hsign, hceil, one_mul, Nat.cast_succ]

/-- Two values that stand for the same number are equal, as `unsignedOfSigned` recovers the value. -/
theorem signedOfUnsigned_injective : Function.Injective signedOfUnsigned :=
  Function.LeftInverse.injective unsigned_signed

/-! #### The inverse -/

theorem unsignedOfSigned_of_pos {k : Int} (h : 0 < k) : unsignedOfSigned k = (2 * k - 1).toNat := if_pos h

theorem unsignedOfSigned_of_nonpos {k : Int} (h : k ≤ 0) : unsignedOfSigned k = (-2 * k).toNat := if_neg h.not_gt

/-- Settles O31: the formula by the parity of the value, injectivity from the left inverse, and each row of the inverse
as `unsignedOfSigned` on that sign. -/
theorem signedMappingIsTheZigzag : Obligations.SignedMappingIsTheZigzag := by
  refine ⟨fun v _ => signedOfUnsigned_eq_sign_mul_ceil v, fun v w hvw => signedOfUnsigned_injective hvw,
    fun k hpos => ?positive, fun k hneg => ?negative, signedOfUnsigned_two_mul 0⟩
  case positive => rw [← unsignedOfSigned_of_pos hpos, signed_unsigned]
  case negative => rw [← unsignedOfSigned_of_nonpos hneg.le, signed_unsigned]

end Sys2Proof.Machine
end

section
/-! ### RBSPTRAIL (42_trailing_bits.md R126, R127)

The three ends of the check are the three cases of the stream view: the stop bit is 0, a later bit is set, or none is.
What the command answers is read off these cases, as under the invariants it answers what the stream view does. -/

namespace Sys2Proof.Machine

/-! #### The stream view of the check, case by case -/

theorem viewTrailing_of_stop_zero {S : Nat → Nat} {L p : Nat} (hstop : S p = 0) :
    viewTrailing S L p = (false, min (p + 1) L) := if_pos hstop

theorem viewTrailing_of_set_bit {S : Nat → Nat} {L p q : Nat} (hstop : S p = 1)
    (hset : firstSet S (L - (p + 1)) (p + 1) = some q) : viewTrailing S L p = (false, q + 1) := by
  simp [viewTrailing, hstop, hset]

theorem viewTrailing_of_no_set_bit {S : Nat → Nat} {L p : Nat} (hstop : S p = 1)
    (hset : firstSet S (L - (p + 1)) (p + 1) = none) : viewTrailing S L p = (true, L) := by
  simp [viewTrailing, hstop, hset]

/-- A stream of bits has no set bit after `p` exactly if every bit from there to the end is 0. -/
theorem firstSet_to_end_eq_none {S : Nat → Nat} (hS : ∀ k, S k < 2) {L p : Nat} :
    firstSet S (L - (p + 1)) (p + 1) = none ↔ ∀ k, p < k → k < L → S k = 0 := by
  rw [firstSet_eq_none]
  constructor
  · intro hnone k hpk hkL
    have hne := hnone k hpk (by omega)
    have hbit := hS k
    omega
  · intro hzero k hpk hkL
    rw [hzero k hpk (by omega)]
    exact zero_ne_one

/-- The check succeeds exactly on a set bit followed by zeros up to the end (R127). -/
theorem viewTrailing_fst_eq_true {S : Nat → Nat} (hS : ∀ k, S k < 2) {L p : Nat} :
    (viewTrailing S L p).1 = true ↔ S p = 1 ∧ ∀ k, p < k → k < L → S k = 0 := by
  rw [← firstSet_to_end_eq_none hS]
  have hbit := hS p
  rcases (by omega : S p = 0 ∨ S p = 1) with hstop | hstop
  · simp [viewTrailing_of_stop_zero hstop, hstop]
  · cases hset : firstSet S (L - (p + 1)) (p + 1) with
    | none => simp [viewTrailing_of_no_set_bit hstop hset, hstop]
    | some q => simp [viewTrailing_of_set_bit hstop hset]

/-- A successful check consumes the rest of the buffer (R126). -/
theorem viewTrailing_snd_of_fst {S : Nat → Nat} (hS : ∀ k, S k < 2) {L p : Nat}
    (h : (viewTrailing S L p).1 = true) : (viewTrailing S L p).2 = L := by
  obtain ⟨hstop, hzero⟩ := (viewTrailing_fst_eq_true hS).mp h
  rw [viewTrailing_of_no_set_bit hstop ((firstSet_to_end_eq_none hS).mpr hzero)]

/-- The check stops one past the first set bit after the stop bit (R126). -/
theorem viewTrailing_snd_of_first_set {S : Nat → Nat} {L p q : Nat} (hstop : S p = 1) (hpq : p < q) (hqL : q < L)
    (hq : S q = 1) (hzero : ∀ k, p < k → k < q → S k = 0) : (viewTrailing S L p).2 = q + 1 := by
  have hset : firstSet S (L - (p + 1)) (p + 1) = some q :=
    firstSet_eq_some.mpr ⟨hpq, by omega, hq, fun k hpk hkq => by rw [hzero k hpk hkq]; exact zero_ne_one⟩
  rw [viewTrailing_of_set_bit hstop hset]

/-! #### The command -/

/-- A set bit of the stream lies inside the buffer: past its end the stream is 0. -/
theorem lt_bitLen_of_stream_eq_one {s : State} {k : Nat} (h : s.stream k = 1) : k < s.bitLen := by
  by_contra hge
  rw [stream_past_end (Nat.le_of_not_lt hge)] at h
  exact zero_ne_one h

/-- The value of RBSPTRAIL's answer: 1 for true, 0 for false (42_trailing_bits.md R125). -/
def trailingValue (good : Bool) : Value := if good then 1 else 0

theorem trailingValue_eq_zero_or_one (good : Bool) : trailingValue good = 0 ∨ trailingValue good = 1 := by
  cases good with
  | false => exact .inl rfl
  | true => exact .inr rfl

theorem trailingValue_eq_one {good : Bool} : trailingValue good = 1 ↔ good = true := by
  cases good with
  | false => simp [trailingValue]
  | true => simp [trailingValue]

/-- Under the invariants RBSPTRAIL completes with the result and the cursor of the stream view. -/
theorem exec_rbsptrail_inv {s : State} (h : s.Inv) :
    ∃ u, exec .rbsptrail s = .next (u.respond .ok (trailingValue (viewTrailing s.stream s.bitLen s.pos).1)) ∧
      s.Advances u ∧ u.Inv ∧ u.pos = (viewTrailing s.stream s.bitLen s.pos).2 := by
  obtain ⟨u, hcheck, hinv, hpos⟩ := trailingCheck_inv h
  exact ⟨u, finish_eq_next.mpr ⟨_, u, hcheck, rfl⟩, trailingCheck_advances hcheck, hinv, hpos⟩

/-- Settles O34: the command answers as the stream view does, and each clause is a case of the stream view; that the
cursor or a set bit lies inside the buffer follows from the bit being 1. -/
theorem trailingCheckAcceptsStopBitThenZeros : Obligations.TrailingCheckAcceptsStopBitThenZeros := by
  intro s hs
  obtain ⟨u, hexec, hadv, hinv, hpos⟩ := exec_rbsptrail_inv hs
  have hbits : ∀ k, s.stream k < 2 := stream_lt_two s
  refine ⟨_, _, hexec, hadv.answered _ _, hadv.readOn, hinv.respond _ _, trailingValue_eq_zero_or_one _, ?accepts,
    ?atEnd, ?stopZero, ?laterSet⟩
  case accepts =>
    rw [trailingValue_eq_one, viewTrailing_fst_eq_true hbits]
    exact (and_iff_right_of_imp fun hgood => lt_bitLen_of_stream_eq_one hgood.1).symm
  case atEnd =>
    intro hvalue
    exact hpos.trans (viewTrailing_snd_of_fst hbits (trailingValue_eq_one.mp hvalue))
  case stopZero =>
    intro hstop
    rw [respond_pos, hpos, viewTrailing_of_stop_zero hstop]
    rfl
  case laterSet =>
    intro q hstop hpq hq hzero
    exact hpos.trans (viewTrailing_snd_of_first_set hstop hpq (lt_bitLen_of_stream_eq_one hq) hq hzero)

end Sys2Proof.Machine
end

section
/-! ### INIT (43_control.md R135)

The two outcomes of INIT: `exec_init_of_windowFits` says the accepting one, and here stand the refusing one and what the
stream view sees of the fresh cursor. -/

namespace Sys2Proof.Machine

/-- INIT refuses a window that wraps: the refusal is answered and nothing else changes. -/
theorem exec_init_of_not_windowFits {b : Addr} {l : Offset} (s : State) (h : ¬ WindowFits b l) :
    exec (.init b l) s = .next s.respondIllegal := if_neg h

/-- No byte is pulled and no bit is buffered, so the bit cursor is at the start (10_state.md R28). -/
@[simp] theorem installCursor_pos (s : State) (b : Addr) (l : Offset) : (s.installCursor b l).pos = 0 := by
  simp [State.pos]

/-- The stream of the fresh cursor is that of the new window of the memory, which stays. -/
@[simp] theorem installCursor_stream (s : State) (b : Addr) (l : Offset) :
    (s.installCursor b l).stream = streamBit s.mem b.toNat l.toNat := rfl

/-- Settles O35: INIT by whether its window fits, and the cursor and the stream of the state it installs, which the
answer leaves alone. -/
theorem initStartsAFreshCursorOrRefuses : Obligations.InitStartsAFreshCursorOrRefuses := by
  intro s b l
  constructor
  · intro hfits
    refine ⟨_, exec_init_of_windowFits s hfits, rfl, ?pos, ?stream⟩
    case pos => rw [respond_pos, installCursor_pos]
    case stream => rw [respond_stream, installCursor_stream]
  · intro hwraps
    exact exec_init_of_not_windowFits s hwraps.not_ge

end Sys2Proof.Machine
end

section
/-! ### The decoder and the encoder agree (30_encoding.md R71, R74)

A word decodes to a command exactly if it is that command's word, the command is well formed, and INIT's operands are the
ones presented beside the word (R73). The table, the round trip and its converse are read off this one equivalence. -/

namespace Sys2Proof

/-- The operands a command carries are those presented beside its word; only INIT carries any (30_encoding.md R73). -/
def Instr.TakesOperandsOf (c : Command) : Instr → Prop
  | .init b l => b = c.initBase ∧ l = c.initLen
  | _ => True

/-- The operand inputs beside an encoded command's word are the command's own. -/
theorem takesOperandsOf_encode (i : Instr) : i.TakesOperandsOf (encode i) := by
  cases i with
  | init b l => exact ⟨rfl, rfl⟩
  | _ => trivial

theorem encode_word (i : Instr) : (encode i).word = encodeWord i := by
  cases i <;> rfl

/-- A word is a command's word exactly if its fields are (30_encoding.md R71). -/
theorem word_eq_encodeWord_iff {w : CommandWord} {i : Instr} :
    w = encodeWord i ↔ rsvField w = 0 ∧ (opField w).toNat = i.opcode.toNat ∧ nField w = i.countField := by
  have hword := word_eq_fields w
  have hcommand := encodeWord_toNat i
  have hn : (nField w).toNat < 64 := (nField w).isLt
  have hrsv : (rsvField w).toNat < 64 := (rsvField w).isLt
  have hcount : i.countField.toNat < 64 := i.countField.isLt
  have hzero : (0 : BitVec 6).toNat = 0 := rfl
  rw [← BitVec.toNat_inj, ← BitVec.toNat_inj (x := rsvField w), ← BitVec.toNat_inj (x := nField w), hcommand, hword,
    hzero]
  omega

/-- Decoding inverts encoding on the word and copies INIT's operands. -/
theorem decode_eq_ok_iff {c : Command} {i : Instr} :
    decode c = .ok i ↔ c.word = encodeWord i ∧ i.WellFormed ∧ i.TakesOperandsOf c := by
  rw [decode_eq_ok, word_eq_encodeWord_iff]
  cases i with
  | getbits n | peekbits n | skipbits n =>
    simp only [Instr.opcode, Instr.countField, Instr.WellFormed, Instr.TakesOperandsOf, BitCount.Legal]
    aesop
  | align | uvlc | svlc | rbsptrail | init b l =>
    simp only [Instr.opcode, Instr.countField, Instr.WellFormed, Instr.TakesOperandsOf]
    aesop

/-- Settles O10: the word, the premise and the operands are the three parts of `decode_eq_ok_iff`. -/
theorem encodeThenDecodeIsIdentity : Obligations.EncodeThenDecodeIsIdentity := fun i hwf =>
  decode_eq_ok_iff.mpr ⟨encode_word i, hwf, takesOperandsOf_encode i⟩

/-- Settles O11: the converse direction, which also says that the command is well formed. -/
theorem decodeThenEncodeGivesTheWord : Obligations.DecodeThenEncodeGivesTheWord := by
  intro c i h
  obtain ⟨hword, hwf, -⟩ := decode_eq_ok_iff.mp h
  exact ⟨(encode_word i).trans hword.symm, hwf⟩

/-- A row of a command with a bit count: its opcode and then the count. -/
theorem decode_eq_ok_iff_toNat {c : Command} {i : Instr} {row : Nat} (hrow : i.opcode.toNat * 4096 = row)
    (hoperands : i.TakesOperandsOf c) :
    decode c = .ok i ↔ c.word.toNat = row + i.countField.toNat ∧ i.WellFormed := by
  rw [decode_eq_ok_iff, ← BitVec.toNat_inj, encodeWord_toNat, hrow, and_iff_left hoperands]

/-- A row of a command without a bit count is one word. -/
theorem decode_eq_ok_iff_word {c : Command} {i : Instr} {word : CommandWord} (hword : encodeWord i = word)
    (hwf : i.WellFormed) : decode c = .ok i ↔ c.word = word ∧ i.TakesOperandsOf c := by
  rw [decode_eq_ok_iff, hword, and_iff_right hwf]

theorem encodeWord_init (b : Addr) (l : Offset) : encodeWord (.init b l) = 0x8000 := by
  change encodeWord (.init 0 0) = 0x8000
  decide

/-- Settles O9: each row of the table is `decode_eq_ok_iff` at its command. -/
theorem decodeReadsExactlyTheTable : Obligations.DecodeReadsExactlyTheTable := by
  intro c
  refine ⟨fun n => ?getbits, fun n => ?peekbits, fun n => ?skipbits, ?align, ?uvlc, ?svlc, ?rbsptrail,
    fun b l => ?init⟩
  case getbits => exact decode_eq_ok_iff_toNat (i := .getbits n) (by simp [Instr.opcode]) trivial
  case peekbits => exact decode_eq_ok_iff_toNat (i := .peekbits n) (by simp [Instr.opcode]) trivial
  case skipbits => exact decode_eq_ok_iff_toNat (i := .skipbits n) (by simp [Instr.opcode]) trivial
  case align => exact (decode_eq_ok_iff_word (by decide) trivial).trans (and_iff_left trivial)
  case uvlc => exact (decode_eq_ok_iff_word (by decide) trivial).trans (and_iff_left trivial)
  case svlc => exact (decode_eq_ok_iff_word (by decide) trivial).trans (and_iff_left trivial)
  case rbsptrail => exact (decode_eq_ok_iff_word (by decide) trivial).trans (and_iff_left trivial)
  case init => exact decode_eq_ok_iff_word (encodeWord_init b l) trivial

/-- Settles O12: each word is the encoding of its command, and INIT's operands are those beside it. -/
theorem wordsWrittenOutDecode : Obligations.WordsWrittenOutDecode := by
  refine ⟨?_, ?_, ?_, ?_, ?_, ?_⟩ <;>
    exact decode_eq_ok_iff.mpr ⟨by decide, by decide, by simp [Instr.TakesOperandsOf]⟩

end Sys2Proof

namespace Sys2Proof.Machine

theorem runCommand_of_decode_eq_ok {c : Command} {i : Instr} (h : decode c = .ok i) (s : State) :
    runCommand c s = exec i s := by
  simp only [runCommand, h]

/-- A command that decodes is executed at the state without it (30_encoding.md R83). -/
theorem step_of_decode_eq_ok {s : State} {c : Command} {rest : List Command} {i : Instr}
    (hcommands : s.commands = c :: rest) (hdecode : decode c = .ok i) : step s = exec i { s with commands := rest } :=
  (step_of_commands hcommands).trans (runCommand_of_decode_eq_ok hdecode _)

/-- Settles O6: the step takes the command off the list and the decoder hands it to `exec`. -/
theorem stepRunsDecodedCommand : Obligations.StepRunsDecodedCommand := fun _ _ _ _ => step_of_decode_eq_ok

/-- Settles O7: with an empty list there is no command to take. -/
theorem stepWithoutCommandChangesNothing : Obligations.StepWithoutCommandChangesNothing := fun _ =>
  step_of_no_command

/-- Settles O13: the table by definition, and code 2 by the three statuses. -/
theorem statusCodesLeaveTwoUnused : Obligations.StatusCodesLeaveTwoUnused := by
  refine ⟨rfl, rfl, rfl, fun st => ?_⟩
  cases st with
  | ok | golombErr | illegal => decide

/-- Settles O2: the reset state is its own block reset, a fresh cursor over the empty window. -/
theorem resetMeetsInvariants : Obligations.ResetMeetsInvariants :=
  installCursor_inv (s := State.reset) windowFits_zero rfl

/-- Settles O5: `exec_init_zero` is the first half, and a fresh cursor over the empty window meets the invariants. -/
theorem resetDuringParseEqualsInitZero : Obligations.ResetDuringParseEqualsInitZero := fun s =>
  ⟨exec_init_zero s, installCursor_inv windowFits_zero⟩

end Sys2Proof.Machine
end

section
/-! ### What each command answers, from what its reads answer

One equivalence per command: what `exec` answers, once the internal read of 40_fixed_width.md R92, R93, 41_golomb.md R111
or 42_trailing_bits.md R125 has completed. Below them the same under the invariants, where every read completes. -/

namespace Sys2Proof.Machine

variable {s t u : State}

/-! #### In every state -/

/-- A command with a bit count answers by its read, or refuses its count (30_encoding.md R72, R75). -/
theorem withCount_finish_eq_next {α : Type} {n : BitCount} {read : Nat → State → Except Fault (α × State)}
    {k : α → State → State} :
    withCount n s (fun m => finish (read m s) k) = .next t ↔
      (n.toNat ≤ 32 ∧ ∃ a u, read n.toNat s = .ok (a, u) ∧ t = k a u) ∨ (32 < n.toNat ∧ t = s.respondIllegal) := by
  rw [withCount_eq_next, finish_eq_next]

theorem exec_getbits_eq_next {n : BitCount} :
    exec (.getbits n) s = .next t ↔
      (n.toNat ≤ 32 ∧ ∃ v u, getBits n.toNat s = .ok (v, u) ∧ t = u.respond .ok (zext32 v)) ∨
        (32 < n.toNat ∧ t = s.respondIllegal) :=
  withCount_finish_eq_next (read := getBits) (k := fun v u => u.respond .ok (zext32 v))

theorem exec_peekbits_eq_next {n : BitCount} :
    exec (.peekbits n) s = .next t ↔
      (n.toNat ≤ 32 ∧ ∃ v u, peekBits n.toNat s = .ok (v, u) ∧ t = u.respond .ok (zext32 v)) ∨
        (32 < n.toNat ∧ t = s.respondIllegal) :=
  withCount_finish_eq_next (read := peekBits) (k := fun v u => u.respond .ok (zext32 v))

theorem exec_skipbits_eq_next {n : BitCount} :
    exec (.skipbits n) s = .next t ↔
      (n.toNat ≤ 32 ∧ ∃ v u, getBits n.toNat s = .ok (v, u) ∧ t = u.respond .ok 0) ∨
        (32 < n.toNat ∧ t = s.respondIllegal) :=
  withCount_finish_eq_next (read := getBits) (k := fun _ u => u.respond .ok 0)

theorem exec_uvlc_eq_next :
    exec .uvlc s = .next t ↔ ∃ r u, uvlcRead s = .ok (r, u) ∧ t = answerUnsigned r u := finish_eq_next

theorem exec_svlc_eq_next :
    exec .svlc s = .next t ↔ ∃ r u, uvlcRead s = .ok (r, u) ∧ t = answerSigned r u := finish_eq_next

theorem exec_rbsptrail_eq_next :
    exec .rbsptrail s = .next t ↔
      ∃ good u, trailingCheck s = .ok (good, u) ∧ t = u.respond .ok (trailingValue good) := finish_eq_next

theorem exec_init_eq_next {b : Addr} {l : Offset} :
    exec (.init b l) s = .next t ↔
      (WindowFits b l ∧ t = (s.installCursor b l).respond .ok 0) ∨ (¬ WindowFits b l ∧ t = s.respondIllegal) := by
  by_cases hfits : WindowFits b l
  · rw [exec_init_of_windowFits s hfits, Host.Outcome.next.injEq, eq_comm, and_iff_right hfits]
    exact (or_iff_left fun h => h.1 hfits).symm
  · rw [exec_init_of_not_windowFits s hfits, Host.Outcome.next.injEq, eq_comm, and_iff_right hfits]
    exact (or_iff_right fun h => hfits h.1).symm

theorem exec_getbits_of_ok {n : BitCount} {v : Nat} (hn : n.toNat ≤ 32) (h : getBits n.toNat s = .ok (v, u)) :
    exec (.getbits n) s = .next (u.respond .ok (zext32 v)) := exec_getbits_eq_next.mpr (.inl ⟨hn, v, u, h, rfl⟩)

theorem exec_peekbits_of_ok {n : BitCount} {v : Nat} (hn : n.toNat ≤ 32) (h : peekBits n.toNat s = .ok (v, u)) :
    exec (.peekbits n) s = .next (u.respond .ok (zext32 v)) := exec_peekbits_eq_next.mpr (.inl ⟨hn, v, u, h, rfl⟩)

theorem exec_skipbits_of_ok {n : BitCount} {v : Nat} (hn : n.toNat ≤ 32) (h : getBits n.toNat s = .ok (v, u)) :
    exec (.skipbits n) s = .next (u.respond .ok 0) := exec_skipbits_eq_next.mpr (.inl ⟨hn, v, u, h, rfl⟩)

theorem exec_uvlc_of_ok {r : Option Nat} (h : uvlcRead s = .ok (r, u)) :
    exec .uvlc s = .next (answerUnsigned r u) := exec_uvlc_eq_next.mpr ⟨r, u, h, rfl⟩

theorem exec_svlc_of_ok {r : Option Nat} (h : uvlcRead s = .ok (r, u)) :
    exec .svlc s = .next (answerSigned r u) := exec_svlc_eq_next.mpr ⟨r, u, h, rfl⟩

theorem exec_rbsptrail_of_ok {good : Bool} (h : trailingCheck s = .ok (good, u)) :
    exec .rbsptrail s = .next (u.respond .ok (trailingValue good)) := exec_rbsptrail_eq_next.mpr ⟨good, u, h, rfl⟩

/-! #### Under the invariants -/

theorem exec_getbits_inv {n : BitCount} (h : s.Inv) (hn : n.toNat ≤ 32) :
    ∃ u, exec (.getbits n) s = .next (u.respond .ok (zext32 (s.field s.pos n.toNat))) ∧ s.Advances u ∧ u.Inv ∧
      u.pos = min (s.pos + n.toNat) s.bitLen := by
  obtain ⟨u, hread, hinv, hpos⟩ := getBits_inv h (n := n.toNat) (by omega)
  exact ⟨u, exec_getbits_of_ok hn hread, getBits_advances hread, hinv, hpos⟩

theorem exec_peekbits_inv {n : BitCount} (h : s.Inv) (hn : n.toNat ≤ 32) :
    ∃ u, exec (.peekbits n) s = .next (u.respond .ok (zext32 (s.field s.pos n.toNat))) ∧ s.Advances u ∧ u.Inv ∧
      u.pos = s.pos := by
  obtain ⟨u, hread, hinv, hpos⟩ := peekBits_inv h (n := n.toNat) (by omega)
  exact ⟨u, exec_peekbits_of_ok hn hread, peekBits_advances hread, hinv, hpos⟩

theorem exec_skipbits_inv {n : BitCount} (h : s.Inv) (hn : n.toNat ≤ 32) :
    ∃ u, exec (.skipbits n) s = .next (u.respond .ok 0) ∧ s.Advances u ∧ u.Inv ∧
      u.pos = min (s.pos + n.toNat) s.bitLen := by
  obtain ⟨u, hread, hinv, hpos⟩ := getBits_inv h (n := n.toNat) (by omega)
  exact ⟨u, exec_skipbits_of_ok hn hread, getBits_advances hread, hinv, hpos⟩

/-- UVLC and SVLC make the same read, that of the stream view, and differ in its answer alone (41_golomb.md R113). -/
theorem exec_golomb_inv (h : s.Inv) :
    ∃ u, exec .uvlc s = .next (answerUnsigned (viewUvlc s.stream s.bitLen s.pos).1 u) ∧
      exec .svlc s = .next (answerSigned (viewUvlc s.stream s.bitLen s.pos).1 u) ∧ s.Advances u ∧ u.Inv ∧
      u.pos = (viewUvlc s.stream s.bitLen s.pos).2 := by
  obtain ⟨u, hread, hinv, hpos⟩ := uvlcRead_inv h
  exact ⟨u, exec_uvlc_of_ok hread, exec_svlc_of_ok hread, uvlcRead_advances hread, hinv, hpos⟩

end Sys2Proof.Machine
end

section
/-! ### The register level refines the stream view (10_state.md R36)

`exec_refines_view` is the simulation: under the invariants every well-formed command answers what the stream view
answers, from a state that meets them again, has the view's cursor and has kept its boundary records. The invariant
(R26), the totality (30_encoding.md R84) and the likeness of two states (R36) are consequences of it. -/

namespace Sys2Proof.Machine

/-! #### The stream view's answer, given by a state -/

/-- The response of the stream view, given from the state `u`: an unspecified value is drawn (30_encoding.md R78). -/
def State.reply (u : State) (w : ViewResponse) : State :=
  match w.value with
  | some v => u.respond w.status v
  | none => u.respondGolombErr

/-- The client's side of the boundary: what no read and no window change touches. -/
structure State.SameRecords (s u : State) : Prop where
  mem : u.mem = s.mem
  commands : u.commands = s.commands
  responses : u.responses = s.responses
  draws : u.draws = s.draws

theorem State.SameRecords.refl (s : State) : s.SameRecords s := ⟨rfl, rfl, rfl, rfl⟩

theorem State.SameRecords.installCursor (s : State) (b : Addr) (l : Offset) :
    s.SameRecords (s.installCursor b l) := ⟨rfl, rfl, rfl, rfl⟩

theorem State.Advances.sameRecords {s u : State} (h : s.Advances u) : s.SameRecords u :=
  ⟨h.same.mem, h.same.commands, h.same.responses, h.same.draws⟩

/-- Reading moves nothing of the view but the cursor. -/
theorem State.Advances.view {s u : State} {p : Nat} (h : s.Advances u) (hpos : u.pos = p) :
    u.view = { s.view with pos := p } := by
  rw [State.view, State.view, h.same.base, h.same.len, hpos]

variable {s t u : State} {w : ViewResponse}

@[simp] theorem reply_view : (u.reply w).view = u.view := by unfold State.reply; split <;> rfl

@[simp] theorem reply_mem : (u.reply w).mem = u.mem := by unfold State.reply; split <;> rfl

theorem State.Inv.reply (h : u.Inv) (w : ViewResponse) : (u.reply w).Inv := by
  unfold State.reply
  split
  · exact h.respond _ _
  · exact h.respondGolombErr

theorem State.Inv.respondIllegal (h : s.Inv) : s.respondIllegal.Inv := h.respond _ _

/-- A reply is one response, the one of the stream view when an unspecified value comes with `GOLOMB_ERR` alone. -/
theorem reply_responses (hw : w.value = none → w.status = .golombErr) :
    ∃ r, (u.reply w).responses = u.responses ++ [r] ∧ r.matches w := by
  unfold State.reply
  cases hv : w.value with
  | some v => exact ⟨⟨w.status, v⟩, rfl, rfl, fun v' hv' => Option.some.inj (hv.symm.trans hv')⟩
  | none => exact ⟨_, rfl, (hw hv).symm, fun v' hv' => absurd (hv.symm.trans hv') (by simp)⟩

/-! #### The stream view of the commands -/

/-- What a Golomb command answers in the stream view, with its own response for a decoded value: UVLC's or SVLC's
(41_golomb.md R113). -/
def golombView (value : Nat → Value) (v : View) : Option Nat × Nat → ViewResponse × View
  | (some r, p) => (⟨.ok, some (value r)⟩, { v with pos := p })
  | (none, p) => (⟨.golombErr, none⟩, { v with pos := p })

theorem viewExec_uvlc (s : State) :
    viewExec s.mem .uvlc s.view = golombView zext32 s.view (viewUvlc s.stream s.bitLen s.pos) := rfl

theorem viewExec_svlc (s : State) :
    viewExec s.mem .svlc s.view =
      golombView (fun r => sext32 (signedOfUnsigned r)) s.view (viewUvlc s.stream s.bitLen s.pos) := rfl

theorem golombView_view (value : Nat → Value) (v : View) (r : Option Nat × Nat) :
    (golombView value v r).2 = { v with pos := r.2 } := by
  obtain ⟨_ | _, _⟩ := r <;> rfl

theorem golombView_status (value : Nat → Value) (v : View) (r : Option Nat × Nat)
    (h : (golombView value v r).1.value = none) : (golombView value v r).1.status = .golombErr := by
  obtain ⟨_ | _, _⟩ := r
  · rfl
  · cases h

theorem reply_golombView_unsigned (u : State) (v : View) (r : Option Nat × Nat) :
    u.reply (golombView zext32 v r).1 = answerUnsigned r.1 u := by
  obtain ⟨_ | _, _⟩ := r <;> rfl

theorem reply_golombView_signed (u : State) (v : View) (r : Option Nat × Nat) :
    u.reply (golombView (fun x => sext32 (signedOfUnsigned x)) v r).1 = answerSigned r.1 u := by
  obtain ⟨_ | _, _⟩ := r <;> rfl

theorem viewExec_init_of_windowFits {b : Addr} {l : Offset} (h : WindowFits b l) :
    viewExec s.mem (.init b l) s.view = (⟨.ok, some 0⟩, ⟨b, l, 0⟩) := if_pos h

theorem viewExec_init_of_not_windowFits {b : Addr} {l : Offset} (h : ¬ WindowFits b l) :
    viewExec s.mem (.init b l) s.view = (⟨.illegal, some 0⟩, s.view) := if_neg h

/-- The stream view leaves a value free with `GOLOMB_ERR` alone (30_encoding.md R78). -/
theorem viewExec_status_of_value_none {i : Instr} (h : (viewExec s.mem i s.view).1.value = none) :
    (viewExec s.mem i s.view).1.status = .golombErr := by
  cases i with
  | getbits n | peekbits n | skipbits n | align | rbsptrail => cases h
  | uvlc => exact golombView_status _ _ _ h
  | svlc => exact golombView_status _ _ _ h
  | init b l =>
    by_cases hfits : WindowFits b l
    · rw [viewExec_init_of_windowFits hfits] at h; cases h
    · rw [viewExec_init_of_not_windowFits hfits] at h; cases h

/-! #### The simulation -/

/-- `exec` of `i` at `s` is the stream view's reply, given from a state with the stream view's cursor. -/
def State.RefinesView (i : Instr) (s : State) : Prop :=
  ∃ u, exec i s = .next (u.reply (viewExec s.mem i s.view).1) ∧ u.Inv ∧ u.view = (viewExec s.mem i s.view).2 ∧
    s.SameRecords u

theorem uvlc_refines_view (h : s.Inv) : State.RefinesView .uvlc s := by
  obtain ⟨u, hexec, -, hadv, hinv, hpos⟩ := exec_golomb_inv h
  refine ⟨u, ?_⟩
  rw [viewExec_uvlc, reply_golombView_unsigned, golombView_view]
  exact ⟨hexec, hinv, hadv.view hpos, hadv.sameRecords⟩

theorem svlc_refines_view (h : s.Inv) : State.RefinesView .svlc s := by
  obtain ⟨u, -, hexec, hadv, hinv, hpos⟩ := exec_golomb_inv h
  refine ⟨u, ?_⟩
  rw [viewExec_svlc, reply_golombView_signed, golombView_view]
  exact ⟨hexec, hinv, hadv.view hpos, hadv.sameRecords⟩

theorem init_refines_view (h : s.Inv) (b : Addr) (l : Offset) : State.RefinesView (.init b l) s := by
  by_cases hfits : WindowFits b l
  · refine ⟨s.installCursor b l, ?_⟩
    rw [viewExec_init_of_windowFits hfits]
    exact ⟨exec_init_of_windowFits s hfits, installCursor_inv hfits h.mem_wf, rfl, .installCursor s b l⟩
  · refine ⟨s, ?_⟩
    rw [viewExec_init_of_not_windowFits hfits]
    exact ⟨exec_init_of_not_windowFits s hfits, h, rfl, .refl s⟩

theorem exec_refines_view {i : Instr} (h : s.Inv) (hwf : i.WellFormed) : State.RefinesView i s := by
  cases i with
  | getbits n =>
    obtain ⟨u, hexec, hadv, hinv, hpos⟩ := exec_getbits_inv h hwf
    exact ⟨u, hexec, hinv, hadv.view hpos, hadv.sameRecords⟩
  | peekbits n =>
    obtain ⟨u, hexec, hadv, hinv, hpos⟩ := exec_peekbits_inv h hwf
    exact ⟨u, hexec, hinv, hadv.view hpos, hadv.sameRecords⟩
  | skipbits n =>
    obtain ⟨u, hexec, hadv, hinv, hpos⟩ := exec_skipbits_inv h hwf
    exact ⟨u, hexec, hinv, hadv.view hpos, hadv.sameRecords⟩
  | align =>
    obtain ⟨hinv, hpos⟩ := align_inv h
    have hadv := State.Advances.consume s (s.cnt.toNat % 8)
    exact ⟨_, exec_align s, hinv, hadv.view hpos, hadv.sameRecords⟩
  | uvlc => exact uvlc_refines_view h
  | svlc => exact svlc_refines_view h
  | rbsptrail =>
    obtain ⟨u, hexec, hadv, hinv, hpos⟩ := exec_rbsptrail_inv h
    exact ⟨u, hexec, hinv, hadv.view hpos, hadv.sameRecords⟩
  | init b l => exact init_refines_view h b l

/-- Settles O48: the reply of the simulation is one response that matches the stream view's. -/
theorem execRefinesTheStreamView : Obligations.ExecRefinesTheStreamView := by
  intro i s h hwf
  obtain ⟨u, hexec, hinv, hview, hrecords⟩ := exec_refines_view h hwf
  obtain ⟨r, hr, hmatches⟩ := reply_responses (u := u) (viewExec_status_of_value_none (s := s) (i := i))
  exact ⟨_, r, hexec, hrecords.responses ▸ hr, hmatches, reply_view.trans hview, reply_mem.trans hrecords.mem,
    hinv.reply _⟩

/-! #### Every step under the invariants -/

/-- A command under the invariants answers a state that meets them: a legal word by the simulation, any other as it is
answered and not executed. -/
theorem runCommand_inv (c : Command) (h : s.Inv) : ∃ t, runCommand c s = .next t ∧ t.Inv := by
  cases hd : decode c with
  | ok i =>
    obtain ⟨u, hexec, hinv, -, -⟩ := exec_refines_view h (decode_eq_ok_iff.mp hd).2.1
    exact ⟨_, (runCommand_of_decode_eq_ok hd s).trans hexec, hinv.reply _⟩
  | error reason =>
    exact ⟨_, runCommand_of_decode_ne_ok (fun i hi => by rw [hd] at hi; cases hi) s, h.respondIllegal⟩

theorem step_inv (h : s.Inv) : ∃ t, step s = .next t ∧ t.Inv := by
  cases hc : s.commands with
  | nil => exact ⟨s, step_of_no_command hc, h⟩
  | cons c rest => rw [step_of_commands hc]; exact runCommand_inv c (h.withCommands rest)

/-- Settles O3: reset by O2, and the one state a step answers by `step_inv`. -/
theorem stepKeepsInvariants : Obligations.StepKeepsInvariants := by
  refine ⟨resetMeetsInvariants, fun s t h hstep => ?_⟩
  obtain ⟨t', hstep', hinv⟩ := step_inv h
  cases hstep'.symm.trans hstep
  exact hinv

/-- Settles O4: `step_inv` gives the state the step answers. -/
theorem stepFromInvariantsAnswersNext : Obligations.StepFromInvariantsAnswersNext := fun _ h =>
  (step_inv h).imp fun _ => And.left

/-! #### States that look alike -/

theorem State.Alike.withCommands (h : s.Alike t) (cs : List Command) :
    State.Alike { s with commands := cs } { t with commands := cs } := ⟨h.view, h.mem, rfl, h.responses, h.draws⟩

/-- Like states that give the same reply stay alike: a drawn value depends on the counter alone (log entry 5). -/
theorem State.Alike.reply (h : s.Alike t) (w : ViewResponse) : (s.reply w).Alike (t.reply w) := by
  unfold State.reply
  cases w.value with
  | some v => exact ⟨h.view, h.mem, h.commands, by simp [h.responses], h.draws⟩
  | none => exact ⟨h.view, h.mem, h.commands, by simp [h.responses, h.draws], by simp [h.draws]⟩

/-- The stream view's answer depends on what like states share, so they reply alike. -/
theorem exec_alike {i : Instr} (hs : s.Inv) (ht : t.Inv) (h : s.Alike t) (hwf : i.WellFormed) :
    ∃ s' t', exec i s = .next s' ∧ exec i t = .next t' ∧ s'.Inv ∧ t'.Inv ∧ s'.Alike t' := by
  obtain ⟨u, hu, hui, huv, hur⟩ := exec_refines_view hs hwf
  obtain ⟨v, hv, hvi, hvv, hvr⟩ := exec_refines_view ht hwf
  rw [← h.mem, ← h.view] at hv hvv
  have halike : u.Alike v :=
    { view := huv.trans hvv.symm
      mem := (hur.mem.trans h.mem).trans hvr.mem.symm
      commands := (hur.commands.trans h.commands).trans hvr.commands.symm
      responses := (hur.responses.trans h.responses).trans hvr.responses.symm
      draws := (hur.draws.trans h.draws).trans hvr.draws.symm }
  exact ⟨_, _, hu, hv, hui.reply _, hvi.reply _, halike.reply _⟩

theorem runCommand_alike (c : Command) (hs : s.Inv) (ht : t.Inv) (h : s.Alike t) :
    ∃ s' t', runCommand c s = .next s' ∧ runCommand c t = .next t' ∧ s'.Inv ∧ t'.Inv ∧ s'.Alike t' := by
  cases hd : decode c with
  | ok i =>
    rw [runCommand_of_decode_eq_ok hd, runCommand_of_decode_eq_ok hd]
    exact exec_alike hs ht h (decode_eq_ok_iff.mp hd).2.1
  | error reason =>
    have hne : ∀ i, decode c ≠ .ok i := fun i hi => by rw [hd] at hi; cases hi
    exact ⟨_, _, runCommand_of_decode_ne_ok hne s, runCommand_of_decode_ne_ok hne t, hs.respondIllegal,
      ht.respondIllegal, h.reply ⟨.illegal, some 0⟩⟩

theorem step_alike (hs : s.Inv) (ht : t.Inv) (h : s.Alike t) :
    ∃ s' t', step s = .next s' ∧ step t = .next t' ∧ s'.Inv ∧ t'.Inv ∧ s'.Alike t' := by
  cases hc : s.commands with
  | nil => exact ⟨s, t, step_of_no_command hc, step_of_no_command (h.commands ▸ hc), hs, ht, h⟩
  | cons c rest =>
    rw [step_of_commands hc, step_of_commands (h.commands ▸ hc)]
    exact runCommand_alike c (hs.withCommands rest) (ht.withCommands rest) (h.withCommands rest)

/-- Settles O49, by induction on the number of steps: each step keeps the invariants of both and their likeness. -/
theorem alikeStatesAnswerAlike : Obligations.AlikeStatesAnswerAlike := by
  intro k
  induction k with
  | zero => exact fun s t _ _ h => ⟨s, t, run_zero s, run_zero t, h⟩
  | succ k ih =>
    intro s t hs ht h
    obtain ⟨s', t', hs', ht', hsi, hti, h'⟩ := step_alike hs ht h
    rw [run_succ_of_next hs', run_succ_of_next ht']
    exact ih s' t' hsi hti h'

end Sys2Proof.Machine
end

section
/-! ### The fixed-width commands (40_fixed_width.md R90 to R99)

`exec_getbits_inv`, `exec_peekbits_inv` and `exec_skipbits_inv` say what the three commands answer under the invariants;
here stand the facts about the stream and the refill that the rules of R90 to R99 need besides, and the rules. -/

namespace Sys2Proof.Machine

variable {s t u : State} {n : BitCount}

/-! #### The answers as numbers -/

/-- A cursor that has stopped at the end of the buffer sees the zeros that lie beyond it. -/
theorem State.field_min_bitLen (s : State) (p d n : Nat) :
    s.field (min p s.bitLen + d) n = s.field (p + d) n := by
  rcases Nat.le_total p s.bitLen with hle | hge
  · rw [Nat.min_eq_left hle]
  · rw [Nat.min_eq_right hge, State.field_past_end (by omega), State.field_past_end (by omega)]

/-- A field of `a` bits followed by one of `b` bits, side by side in one response value (40_fixed_width.md R98). -/
theorem zext32_shiftLeft_or {f g a b : Nat} (hf : f < 2 ^ a) (hg : g < 2 ^ b) (hab : a + b ≤ 32) :
    zext32 f <<< b ||| zext32 g = zext32 (f * 2 ^ b + g) := by
  have hword : (2 : Nat) ^ (a + b) ≤ 2 ^ 32 := Nat.pow_le_pow_right (by omega) hab
  have hsum : f * 2 ^ b + g < 2 ^ (a + b) := by
    rw [pow_add]
    calc f * 2 ^ b + g < (f + 1) * 2 ^ b := by rw [Nat.succ_mul]; omega
      _ ≤ 2 ^ a * 2 ^ b := Nat.mul_le_mul_right _ hf
  have hhigh : f * 2 ^ b < 2 ^ 32 := by omega
  have hf32 : f < 2 ^ 32 := lt_of_le_of_lt (Nat.le_mul_of_pos_right f (Nat.two_pow_pos b)) hhigh
  have hor : f * 2 ^ b ||| g = f * 2 ^ b + g := by
    rw [Nat.mul_comm, Nat.two_pow_add_eq_or_of_lt hg]
  apply BitVec.eq_of_toNat_eq
  rw [BitVec.toNat_or, BitVec.toNat_shiftLeft, zext32_toNat, zext32_toNat, zext32_toNat, Nat.shiftLeft_eq,
    Nat.mod_eq_of_lt (a := f) (by omega), Nat.mod_eq_of_lt (a := f * 2 ^ b) (by omega),
    Nat.mod_eq_of_lt (a := g) (by omega), Nat.mod_eq_of_lt (by omega), hor]

/-! #### When a request pulls nothing, and what it pulls -/

/-- A request that finds its bits buffered, or the buffer ended, pulls nothing (40_fixed_width.md R91). -/
theorem refillFor_of_enough {n : Nat} (h : n ≤ s.cnt.toNat ∨ s.off = s.len) : refillFor n s = .ok s := by
  unfold refillFor
  split
  · next hshort =>
    have hend : s.off = s.len := h.resolve_left (by omega)
    have hpull : ¬ s.canPull = true := by rw [canPull_iff, hend]; omega
    rw [refill, refillLoop, if_neg hpull]
  · rfl

theorem peekBits_of_enough {n : Nat} (h : n ≤ s.cnt.toNat ∨ s.off = s.len) : peekBits n s = .ok (s.topBits n, s) :=
  peekBits_eq_ok.mpr ⟨refillFor_of_enough h, rfl⟩

theorem getBits_of_enough {n : Nat} (h : n ≤ s.cnt.toNat ∨ s.off = s.len) :
    getBits n s = .ok (s.topBits n, s.consume n) :=
  getBits_eq_ok.mpr ⟨s, refillFor_of_enough h, rfl, rfl⟩

/-- After `peek(n)` the bits are buffered or the buffer has ended (40_fixed_width.md R91). -/
theorem peekBits_enough {n v : Nat} (h : s.Inv) (hn : n ≤ 57) (hread : peekBits n s = .ok (v, u)) :
    n ≤ u.cnt.toNat ∨ u.off = u.len := by
  obtain ⟨u', hrefill, -, -, henough⟩ := refillFor_inv h hn
  cases hrefill.symm.trans (peekBits_eq_ok.mp hread).1
  exact henough

/-- A short request refills (40_fixed_width.md R92, R93). -/
theorem refillFor_of_lt {n : Nat} (h : s.cnt.toNat < n) : refillFor n s = refill s := if_pos h

/-! #### The rules -/

/-- Settles O14: what `exec_getbits_inv` answers, with the frame of its reads. -/
theorem getbitsReadsAndConsumes : Obligations.GetbitsReadsAndConsumes := by
  intro s n h hn
  obtain ⟨u, hexec, hadv, hinv, hpos⟩ := exec_getbits_inv h hn
  exact ⟨_, hexec, hadv.answered _ _, hpos, hadv.readOn, hinv.respond _ _⟩

/-- Settles O15: what `exec_peekbits_inv` answers, with the frame of its reads. -/
theorem peekbitsReadsWithoutConsuming : Obligations.PeekbitsReadsWithoutConsuming := by
  intro s n h hn
  obtain ⟨u, hexec, hadv, hinv, hpos⟩ := exec_peekbits_inv h hn
  exact ⟨_, hexec, hadv.answered _ _, hpos, hadv.readOn, hinv.respond _ _⟩

/-- Settles O16: both commands make the same read and differ in the value they answer. -/
theorem skipbitsConsumesLikeGetbits : Obligations.SkipbitsConsumesLikeGetbits := by
  intro s n h hn
  obtain ⟨u, hread, -, hpos⟩ := getBits_inv h (n := n.toNat) (by omega)
  exact ⟨_, _, exec_skipbits_of_ok hn hread, exec_getbits_of_ok hn hread, (getBits_advances hread).answered _ _, rfl,
    rfl, rfl, rfl, hpos⟩

/-- Settles O18: the illegal-count case of each command. -/
theorem countAboveThirtyTwoIsIllegal : Obligations.CountAboveThirtyTwoIsIllegal := fun _ _ hn =>
  ⟨exec_getbits_eq_next.mpr (.inr ⟨hn, rfl⟩), exec_peekbits_eq_next.mpr (.inr ⟨hn, rfl⟩),
    exec_skipbits_eq_next.mpr (.inr ⟨hn, rfl⟩)⟩

/-- Settles O19: with enough bits buffered a read is the top bits, and `consume_of_le` is what GETBITS and SKIPBITS do to
them. -/
theorem bufferedReadsTouchNoMemory : Obligations.BufferedReadsTouchNoMemory := by
  intro s n hn hbuffered
  have hget := getBits_of_le hbuffered
  have hpeek := peekBits_of_le hbuffered
  rw [topBits_eq] at hget hpeek
  rw [consume_of_le hbuffered] at hget
  exact ⟨exec_getbits_of_ok hn hget, exec_peekbits_of_ok hn hpeek, exec_skipbits_of_ok hn hget⟩

/-- Settles O20: both requests refill, and `refill_inv` counts the bytes; each byte adds 8 bits, as the cursor stays. -/
theorem shortRequestPullsWholeBytes : Obligations.ShortRequestPullsWholeBytes := by
  intro s n h hn hshort
  obtain ⟨u, hrefill, hinv, hpos, hoff, hfull⟩ := refill_inv h
  have hfor : refillFor n.toNat s = .ok u := (refillFor_of_lt hshort).trans hrefill
  have hadv := refillFor_advances hfor
  have hbefore := h.pos_add_cnt
  have hafter := hinv.pos_add_cnt
  have hpulled : u.off.toNat - s.off.toNat = min (s.len.toNat - s.off.toNat) ((64 - s.cnt.toNat) / 8) := by omega
  have hreads := hadv.readOn.2
  rw [hpulled] at hreads
  exact ⟨_, exec_peekbits_of_ok hn (peekBits_eq_ok.mpr ⟨hfor, rfl⟩), hoff, by rw [respond_cnt]; omega, hreads, hfull,
    _, exec_getbits_of_ok hn (getBits_eq_ok.mpr ⟨u, hfor, rfl, rfl⟩), rfl, rfl⟩

/-- Settles O21: the second read starts where the first has stopped, and `State.field_add` concatenates the fields. -/
theorem consecutiveReadsConcatenate : Obligations.ConsecutiveReadsConcatenate := by
  intro s a b h hab
  have hsum : (a + b).toNat = a.toNat + b.toNat := BitVec.toNat_add_of_lt (by omega)
  obtain ⟨t, hfirst, hadv, hinv, htpos⟩ := exec_getbits_inv h (n := a) (by omega)
  obtain ⟨u, hsecond, hadv', -, hupos⟩ :=
    exec_getbits_inv (hinv.respond .ok (zext32 (s.field s.pos a.toNat))) (n := b) (by omega)
  obtain ⟨w, hboth, hadvw, -, hwpos⟩ := exec_getbits_inv h (n := a + b) (by omega)
  have hfield : t.field t.pos b.toNat = s.field (s.pos + a.toNat) b.toNat := by
    rw [hadv.same.field, htpos]
    exact s.field_min_bitLen _ 0 _
  have hvalue : zext32 (s.field s.pos a.toNat) <<< b.toNat ||| zext32 (t.field t.pos b.toNat) =
      zext32 (s.field s.pos (a + b).toNat) := by
    rw [hfield, hsum, State.field_add, zext32_shiftLeft_or (field_lt s _ _) (field_lt s _ _) hab]
  refine ⟨_, _, _, zext32 (s.field s.pos a.toNat), zext32 (t.field t.pos b.toNat), hfirst, ?first,
    hsecond, ?second, hboth, ?both, ?cursor⟩
  case first => rw [respond_responses, hadv.same.responses]
  case second => rw [respond_responses, hadv'.same.responses]; rfl
  case both => rw [respond_responses, hadvw.same.responses, hvalue]
  case cursor =>
    rw [respond_pos, respond_pos, hupos, hwpos, respond_pos, respond_bitLen, hadv.same.bitLen, htpos, hsum]
    omega

/-- Settles O22: the cursor stays, so both reads give the same field; and what one PEEKBITS n has buffered is enough for
the next. -/
theorem peekThenGetReturnTheSameValue : Obligations.PeekThenGetReturnTheSameValue := by
  intro s n h hn
  obtain ⟨u, hread, hinv, hpos⟩ := peekBits_inv h (n := n.toNat) (by omega)
  have hadv := peekBits_advances hread
  have henough := peekBits_enough h (by omega) hread
  have hfield : u.field u.pos n.toNat = s.field s.pos n.toNat := by rw [hadv.same.field, hpos]
  have hinv' := hinv.respond .ok (zext32 (s.field s.pos n.toNat))
  obtain ⟨w, hget, hadv', -, -⟩ := exec_getbits_inv hinv' hn
  have hagain := peekBits_of_enough (s := u.respond .ok (zext32 (s.field s.pos n.toNat))) henough
  rw [topBits_inv hinv' (by omega) henough] at hagain
  refine ⟨_, _, zext32 (s.field s.pos n.toNat), exec_peekbits_of_ok hn hread, ?peek, hget, ?get,
    (exec_peekbits_of_ok hn hagain).trans ?again⟩
  case peek => rw [respond_responses, hadv.same.responses]
  case get =>
    rw [respond_responses, hadv'.same.responses, ← hfield]
    rfl
  case again =>
    rw [← hfield]
    rfl

/-- Settles O23: `field_byte` at the cursor's byte. -/
theorem alignedByteReadReturnsTheByte : Obligations.AlignedByteReadReturnsTheByte := by
  intro s h haligned hinside
  obtain ⟨u, hexec, hadv, -, hpos⟩ := exec_getbits_inv h (n := 8) (by decide)
  have hbyte : s.field s.pos 8 = (s.mem.read (s.base.toNat + s.pos / 8)).toNat := by
    have hcursor : s.pos = 8 * (s.pos / 8) := by omega
    rw [State.field, hcursor, Nat.mul_div_cancel_left _ (by omega)]
    exact field_byte (by omega)
  refine ⟨_, hexec, ?value, ?cursor⟩
  case value =>
    rw [respond_responses, hadv.same.responses, show (8 : BitCount).toNat = 8 from rfl, hbyte, zext32,
      BitVec.ofNat_toNat]
  case cursor =>
    have hL : s.bitLen = 8 * s.len.toNat := rfl
    rw [respond_pos, hpos, show (8 : BitCount).toNat = 8 from rfl]
    omega

end Sys2Proof.Machine
end

section
/-! ### The end of the buffer (40_fixed_width.md R99, 43_control.md R137)

At the end nothing is buffered and nothing is left to pull, so every read answers 0 and changes nothing; each command's
answer follows from that. -/

namespace Sys2Proof.Machine

variable {s : State}

/-- Every byte pulled and every bit consumed (40_fixed_width.md R99). -/
structure State.AtEnd (s : State) : Prop where
  off : s.off = s.len
  cnt : s.cnt = 0
  acc : s.acc = 0

theorem State.Inv.atEnd (h : s.Inv) (hpos : s.pos = s.bitLen) : s.AtEnd := by
  have hsum := h.pos_add_cnt
  have hoff := h.off_le
  have hL : s.bitLen = 8 * s.len.toNat := rfl
  have hcnt : s.cnt = 0 := BitVec.eq_of_toNat_eq (show s.cnt.toNat = 0 by omega)
  refine ⟨BitVec.eq_of_toNat_eq (by omega), hcnt, BitVec.eq_of_toNat_eq ?_⟩
  rw [h.acc_eq, hcnt]
  exact Nat.zero_mul _

namespace State.AtEnd

theorem topBits (h : s.AtEnd) (n : Nat) : s.topBits n = 0 := by
  rw [topBits_eq, h.acc]
  exact Nat.zero_div _

/-- There is nothing to shift out or to count down. -/
theorem consume (h : s.AtEnd) (n : Nat) : s.consume n = s := by
  have hacc : s.acc <<< n = s.acc := by rw [h.acc]; simp
  have hcnt : BitVec.ofNat 7 (s.cnt.toNat - min n s.cnt.toNat) = s.cnt := by rw [h.cnt]; simp
  rw [State.consume, hacc, hcnt]

theorem getBits (h : s.AtEnd) (n : Nat) : getBits n s = .ok (0, s) := by
  rw [getBits_of_enough (.inr h.off), h.topBits, h.consume]

theorem peekBits (h : s.AtEnd) (n : Nat) : peekBits n s = .ok (0, s) := by
  rw [peekBits_of_enough (.inr h.off), h.topBits]

/-- Only zero bits are counted, up to the cap (41_golomb.md R112). -/
theorem countZeros (h : s.AtEnd) (left zeros : Nat) : countZeros left zeros s = .ok (none, s) := by
  induction left generalizing zeros with
  | zero => rfl
  | succ left ih => simp only [Machine.countZeros, h.getBits, ih]; rfl

theorem uvlcRead (h : s.AtEnd) : uvlcRead s = .ok (none, s) := by
  simp only [Machine.uvlcRead, h.countZeros]

/-- The stop bit is read as 0 (42_trailing_bits.md R126). -/
theorem trailingCheck (h : s.AtEnd) : trailingCheck s = .ok (false, s) := by
  simp only [Machine.trailingCheck, h.getBits, if_true]

end State.AtEnd

/-- Settles O24: the cursor at the end is the state `AtEnd`, and each command is its read there. -/
theorem endOfBufferAnswersAndStays : Obligations.EndOfBufferAnswersAndStays := by
  intro s h hpos
  have hend : s.AtEnd := h.atEnd hpos
  have halign : s.cnt.toNat % 8 = 0 := by rw [hend.cnt]; rfl
  exact ⟨hend.off, hend.cnt, hend.acc,
    fun n hn => ⟨exec_getbits_of_ok hn (hend.getBits _), exec_peekbits_of_ok hn (hend.peekBits _),
      exec_skipbits_of_ok hn (hend.getBits _)⟩,
    exec_align_of_cnt_mod_eq_zero halign, exec_uvlc_of_ok hend.uvlcRead, exec_svlc_of_ok hend.uvlcRead,
    exec_rbsptrail_of_ok hend.trailingCheck⟩

end Sys2Proof.Machine
end

section
/-! ### UVLC and SVLC (41_golomb.md R111 to R116)

Under the invariants both commands answer by the decoder of the stream view (`exec_golomb_inv`), so each rule is a case of
that decoder: a code of `z` leading zeros, too many zeros, or the code the encoder writes. The rules about every state
follow from the bound on what `uvlc()` can return. -/

namespace Sys2Proof.Machine

variable {s t u : State}

/-! #### The decoder of the stream view, case by case -/

/-- `z` zero bits and then a set bit: the code of R110. -/
theorem viewUvlc_of_code {S : Nat → Nat} {L p z : Nat} (hz : z ≤ 20) (hzeros : ∀ k, k < z → S (p + k) = 0)
    (hone : S (p + z) = 1) :
    viewUvlc S L p = (some (2 ^ z - 1 + fieldOf S (p + z + 1) z), min (p + 2 * z + 1) L) := by
  have hfirst : firstSet S (Config.maxz + 1) p = some (p + z) := by
    refine firstSet_eq_some.mpr ⟨by omega, by rw [maxz_eq]; omega, hone, fun k hpk hkz => ?_⟩
    have hbit := hzeros (k - p) (by omega)
    rw [Nat.add_sub_cancel' hpk] at hbit
    omega
  simp only [viewUvlc, hfirst, Nat.add_sub_cancel_left]

/-- One zero bit more than the cap: the error (R112). -/
theorem viewUvlc_of_zeros {S : Nat → Nat} {L p : Nat} (hzeros : ∀ k, k < 21 → S (p + k) = 0) :
    viewUvlc S L p = (none, min (p + 21) L) := by
  have hfirst : firstSet S (Config.maxz + 1) p = none := by
    refine firstSet_eq_none.mpr fun k hpk hk => ?_
    have hbit := hzeros (k - p) (by rw [maxz_eq] at hk; omega)
    rw [Nat.add_sub_cancel' hpk] at hbit
    omega
  simp only [viewUvlc, hfirst]
  rfl

/-! #### The signed value -/

/-- The signed value as a response: two's complement of `v div 2`, or `(v + 1) div 2` (R113). -/
theorem sext32_signedOfUnsigned (v : Nat) :
    sext32 (signedOfUnsigned v) = if v % 2 = 0 then -BitVec.ofNat 32 (v / 2) else BitVec.ofNat 32 ((v + 1) / 2) := by
  unfold sext32 signedOfUnsigned
  split
  · rw [BitVec.ofInt_neg, BitVec.ofInt_natCast]
  · rw [BitVec.ofInt_natCast]

theorem signedOfUnsigned_bounds {v : Nat} (hv : v ≤ 2097150) :
    -1048575 ≤ signedOfUnsigned v ∧ signedOfUnsigned v ≤ 1048575 := by
  unfold signedOfUnsigned
  split <;> omega

theorem unsignedOfSigned_le {k : Int} (hlo : -1048575 ≤ k) (hhi : k ≤ 1048575) : unsignedOfSigned k ≤ 2097150 := by
  unfold unsignedOfSigned
  split <;> omega

/-! #### Under the invariants: one code, or the error -/

/-- Where the stream view decodes a value, both commands answer it and stand at its cursor. -/
theorem exec_golomb_of_some {v p : Nat} (h : s.Inv) (hview : viewUvlc s.stream s.bitLen s.pos = (some v, p)) :
    ∃ u, exec .uvlc s = .next (u.respond .ok (zext32 v)) ∧
      exec .svlc s = .next (u.respond .ok (sext32 (signedOfUnsigned v))) ∧ s.Advances u ∧ u.Inv ∧ u.pos = p := by
  obtain ⟨u, huvlc, hsvlc, hadv, hinv, hpos⟩ := exec_golomb_inv h
  rw [hview] at huvlc hsvlc hpos
  exact ⟨u, huvlc, hsvlc, hadv, hinv, hpos⟩

/-- Where the stream view finds no code, both commands answer `GOLOMB_ERR` from the same state. -/
theorem exec_golomb_of_none {p : Nat} (h : s.Inv) (hview : viewUvlc s.stream s.bitLen s.pos = (none, p)) :
    ∃ u, exec .uvlc s = .next u.respondGolombErr ∧ exec .svlc s = .next u.respondGolombErr ∧ s.Advances u ∧ u.Inv ∧
      u.pos = p := by
  obtain ⟨u, huvlc, hsvlc, hadv, hinv, hpos⟩ := exec_golomb_inv h
  rw [hview] at huvlc hsvlc hpos
  exact ⟨u, huvlc, hsvlc, hadv, hinv, hpos⟩

/-- Settles O25: the stream view decodes the code, and UVLC answers what it decodes. -/
theorem uvlcDecodesOneCode : Obligations.UvlcDecodesOneCode := by
  intro s z h hz hzeros hone
  obtain ⟨u, hexec, -, hadv, hinv, hpos⟩ := exec_golomb_of_some h (viewUvlc_of_code hz hzeros hone)
  exact ⟨_, hexec, hadv.answered _ _, hpos, hadv.readOn, hinv.respond _ _⟩

/-- Settles O26: the stream view finds no code, and UVLC fails from its cursor. -/
theorem uvlcReportsGolombErr : Obligations.UvlcReportsGolombErr := by
  intro s h hzeros
  obtain ⟨u, hexec, -, hadv, hinv, hpos⟩ := exec_golomb_of_none h (viewUvlc_of_zeros hzeros)
  exact ⟨_, hexec, hadv.answeredGolombErr, hpos, hadv.readOn, hinv.respondGolombErr⟩

/-- Settles O27: the code of O25, answered by its signed value. -/
theorem svlcDecodesOneCode : Obligations.SvlcDecodesOneCode := by
  intro s z v h hz hzeros hone hv
  obtain ⟨u, -, hexec, hadv, hinv, hpos⟩ := exec_golomb_of_some h (viewUvlc_of_code hz hzeros hone)
  rw [← State.field, ← hv, sext32_signedOfUnsigned] at hexec
  exact ⟨_, hexec, hadv.answered _ _, hpos, hadv.readOn, hinv.respond _ _⟩

/-- Settles O28: both commands fail from one state. -/
theorem svlcReportsGolombErr : Obligations.SvlcReportsGolombErr := by
  intro s h hzeros
  obtain ⟨u, huvlc, hsvlc, hadv, -, -⟩ := exec_golomb_of_none h (viewUvlc_of_zeros hzeros)
  exact ⟨_, hsvlc, huvlc, hadv.answeredGolombErr⟩

/-- Settles O32: the stream view inverts the encoder (`viewUvlc_of_holdsCode`), and the whole code lies in the buffer, so
the cursor does not stop at the end. -/
theorem uvlcInvertsTheEncoder : Obligations.UvlcInvertsTheEncoder := by
  intro s v h hv hcode hinside
  obtain ⟨u, hexec, -, hadv, -, hpos⟩ := exec_golomb_of_some h (viewUvlc_of_holdsCode (stream_lt_two s) hv hcode)
  exact ⟨_, hexec, hadv.answered _ _, hpos.trans (Nat.min_eq_left hinside)⟩

/-- Settles O33: the code of O32 at the unsigned stand-in of `k`, which `signed_unsigned` turns back. -/
theorem svlcInvertsTheEncoder : Obligations.SvlcInvertsTheEncoder := by
  intro s k h hlo hhi hcode hinside
  obtain ⟨u, -, hexec, hadv, -, hpos⟩ :=
    exec_golomb_of_some h (viewUvlc_of_holdsCode (stream_lt_two s) (unsignedOfSigned_le hlo hhi) hcode)
  rw [signed_unsigned] at hexec
  exact ⟨_, _, hexec, hadv.answered _ _, sext32_toInt (by omega) (by omega), hpos.trans (Nat.min_eq_left hinside)⟩

/-! #### In every state: what `uvlc()` can return -/

theorem topBits_lt (s : State) {n : Nat} (hn : n ≤ 64) : s.topBits n < 2 ^ n := by
  rw [topBits_eq, Nat.div_lt_iff_lt_mul (Nat.two_pow_pos _), ← pow_add, Nat.add_sub_cancel' hn]
  exact s.acc.isLt

theorem getBits_lt {n v : Nat} (hn : n ≤ 64) (h : getBits n s = .ok (v, t)) : v < 2 ^ n := by
  obtain ⟨u, -, rfl, -⟩ := getBits_eq_ok.mp h
  exact topBits_lt u hn

/-- The count goes up by one with each turn of the loop. -/
theorem countZeros_lt {left zeros z : Nat} (h : countZeros left zeros s = .ok (some z, t)) : z < zeros + left := by
  induction left generalizing zeros s with
  | zero => simp [countZeros] at h
  | succ left ih =>
    unfold countZeros at h
    split at h
    · split at h
      · simp only [Except.ok.injEq, Prod.mk.injEq, Option.some.injEq] at h
        omega
      · have := ih h
        omega
    · simp at h

/-- An offset of `z <= 20` bits gives at most `2^(z+1) - 2` (R115). -/
theorem readOffset_le {z v : Nat} (hz : z ≤ 20) (h : readOffset z s = .ok (some v, t)) : v ≤ 2097150 := by
  have hpow : 2 ^ z ≤ 2 ^ 20 := Nat.pow_le_pow_right (by omega) hz
  unfold readOffset at h
  split at h
  · simp only [Except.ok.injEq, Prod.mk.injEq, Option.some.injEq] at h
    omega
  · split at h
    · next offset _ hread =>
      have hoffset := getBits_lt (by omega) hread
      simp only [Except.ok.injEq, Prod.mk.injEq, Option.some.injEq] at h
      omega
    · simp at h

theorem uvlcRead_le {v : Nat} (h : uvlcRead s = .ok (some v, t)) : v ≤ 2097150 := by
  unfold uvlcRead at h
  split at h
  · next z _ hcount =>
    have hz := countZeros_lt hcount
    rw [maxz_eq] at hz
    exact readOffset_le (by omega) h
  · simp at h
  · simp at h

/-- Below 2^32 a number is the value of its response. -/
theorem zext32_toNat_of_le {v : Nat} (hv : v ≤ 2097150) : (zext32 v).toNat = v := by
  rw [zext32_toNat, Nat.mod_eq_of_lt (by omega)]

/-- A response added to those of `s` is the one given. -/
theorem response_eq_of_append {r r' : Response} (hsame : u.responses = s.responses)
    (h : u.responses ++ [r] = s.responses ++ [r']) : r' = r := by
  rw [hsame] at h
  simpa [eq_comm] using h

/-- An `OK` response of UVLC is a value of `uvlc()`. -/
theorem answerUnsigned_ok {r : Option Nat} {v : Value} (hadv : s.Advances u)
    (h : (answerUnsigned r u).responses = s.responses ++ [⟨.ok, v⟩]) : ∃ w, r = some w ∧ v = zext32 w := by
  cases r with
  | some w => exact ⟨w, rfl, congrArg Response.value (response_eq_of_append hadv.same.responses h)⟩
  | none => cases congrArg Response.status (response_eq_of_append hadv.same.responses h)

/-- An `OK` response of SVLC is the signed value of a value of `uvlc()`. -/
theorem answerSigned_ok {r : Option Nat} {v : Value} (hadv : s.Advances u)
    (h : (answerSigned r u).responses = s.responses ++ [⟨.ok, v⟩]) :
    ∃ w, r = some w ∧ v = sext32 (signedOfUnsigned w) := by
  cases r with
  | some w => exact ⟨w, rfl, congrArg Response.value (response_eq_of_append hadv.same.responses h)⟩
  | none => cases congrArg Response.status (response_eq_of_append hadv.same.responses h)

/-- Settles O29: both commands answer one read; a value of it fits the response, so SVLC's answer is the signed value of
UVLC's. -/
theorem svlcHasTheEffectsOfUvlc : Obligations.SvlcHasTheEffectsOfUvlc := by
  intro s t hexec
  obtain ⟨r, u, hread, rfl⟩ := exec_uvlc_eq_next.mp hexec
  have hresponses := (uvlcRead_advances hread).same.responses
  have hsvlc := exec_svlc_of_ok hread
  cases r with
  | none => exact ⟨⟨.golombErr, Config.golombErrValue u.draws⟩, by rw [← hresponses]; rfl, .inr ⟨rfl, hsvlc⟩⟩
  | some v =>
    refine ⟨⟨.ok, zext32 v⟩, by rw [← hresponses]; rfl, .inl ⟨rfl, ?_⟩⟩
    rw [hsvlc, zext32_toNat_of_le (uvlcRead_le hread), ← hresponses]
    rfl

/-- Settles O30: `uvlcRead_le`, and for SVLC the signed values of the numbers up to that bound. -/
theorem golombValuesStayInRange : Obligations.GolombValuesStayInRange := by
  intro s
  constructor
  · intro t v hexec hresponse
    obtain ⟨r, u, hread, rfl⟩ := exec_uvlc_eq_next.mp hexec
    obtain ⟨w, rfl, rfl⟩ := answerUnsigned_ok (uvlcRead_advances hread) hresponse
    have hle := uvlcRead_le hread
    rw [zext32_toNat_of_le hle]
    exact hle
  · intro t v hexec hresponse
    obtain ⟨r, u, hread, rfl⟩ := exec_svlc_eq_next.mp hexec
    obtain ⟨w, rfl, rfl⟩ := answerSigned_ok (uvlcRead_advances hread) hresponse
    obtain ⟨hlo, hhi⟩ := signedOfUnsigned_bounds (uvlcRead_le hread)
    rw [sext32_toInt (by omega) (by omega)]
    exact ⟨hlo, hhi⟩

end Sys2Proof.Machine
end

section
/-! ### What a command can answer, in every state

`exec_answer` lists every outcome of every command once: its reads and then one response, a refusal, or a fresh cursor. The
frames (40_fixed_width.md R94 to R97, 41_golomb.md R111 to R113, 42_trailing_bits.md R125, 43_control.md R135), the
provenance of the error statuses (60_exceptions.md R145, R146) and the rules about addresses (20_memory.md R51, R54) are
read off this list. -/

namespace Sys2Proof.Machine

variable {i : Instr} {s t u : State}

/-- Every outcome of a command. -/
inductive State.Answer (s : State) : Instr → State → Prop
  /-- A command other than INIT reads and answers `OK`. -/
  | ok {i : Instr} {u : State} (v : Value) (hadv : s.Advances u) (hinit : ∀ b l, i ≠ .init b l) :
      Answer s i (u.respond .ok v)
  /-- A Golomb command reads and fails (41_golomb.md R112). -/
  | golombErr {i : Instr} {u : State} (hadv : s.Advances u) (hgolomb : i = .uvlc ∨ i = .svlc) :
      Answer s i u.respondGolombErr
  /-- A bit count over 32 is refused (30_encoding.md R75, log entry 12). -/
  | illegalCount {i : Instr} (hwf : ¬ i.WellFormed) : Answer s i s.respondIllegal
  /-- INIT starts a fresh cursor (43_control.md R135). -/
  | fresh {b : Addr} {l : Offset} (hfits : WindowFits b l) :
      Answer s (.init b l) ((s.installCursor b l).respond .ok 0)
  /-- INIT refuses its window (43_control.md R135). -/
  | refused {b : Addr} {l : Offset} (hfits : ¬ WindowFits b l) : Answer s (.init b l) s.respondIllegal

theorem State.Answer.ofUnsigned {r : Option Nat} (hadv : s.Advances u) : s.Answer .uvlc (answerUnsigned r u) := by
  cases r with
  | some v => exact .ok _ hadv (by simp)
  | none => exact .golombErr hadv (.inl rfl)

theorem State.Answer.ofSigned {r : Option Nat} (hadv : s.Advances u) : s.Answer .svlc (answerSigned r u) := by
  cases r with
  | some v => exact .ok _ hadv (by simp)
  | none => exact .golombErr hadv (.inr rfl)

theorem exec_answer (h : exec i s = .next t) : s.Answer i t := by
  cases i with
  | getbits n =>
    rcases exec_getbits_eq_next.mp h with ⟨-, v, u, hread, rfl⟩ | ⟨hn, rfl⟩
    · exact .ok _ (getBits_advances hread) (by simp)
    · exact .illegalCount hn.not_ge
  | peekbits n =>
    rcases exec_peekbits_eq_next.mp h with ⟨-, v, u, hread, rfl⟩ | ⟨hn, rfl⟩
    · exact .ok _ (peekBits_advances hread) (by simp)
    · exact .illegalCount hn.not_ge
  | skipbits n =>
    rcases exec_skipbits_eq_next.mp h with ⟨-, v, u, hread, rfl⟩ | ⟨hn, rfl⟩
    · exact .ok _ (getBits_advances hread) (by simp)
    · exact .illegalCount hn.not_ge
  | align =>
    rw [exec_align] at h
    cases h
    exact .ok _ (.consume s _) (by simp)
  | uvlc =>
    obtain ⟨r, u, hread, rfl⟩ := exec_uvlc_eq_next.mp h
    exact .ofUnsigned (uvlcRead_advances hread)
  | svlc =>
    obtain ⟨r, u, hread, rfl⟩ := exec_svlc_eq_next.mp h
    exact .ofSigned (uvlcRead_advances hread)
  | rbsptrail =>
    obtain ⟨good, u, hread, rfl⟩ := exec_rbsptrail_eq_next.mp h
    exact .ok _ (trailingCheck_advances hread) (by simp)
  | init b l =>
    rcases exec_init_eq_next.mp h with ⟨hfits, rfl⟩ | ⟨hfits, rfl⟩
    · exact .fresh hfits
    · exact .refused hfits

/-! #### What every outcome shares -/

/-- A command takes no further command off the list and gives one response (30_encoding.md R76, R83). -/
theorem State.Answer.boundary (h : s.Answer i t) :
    t.commands = s.commands ∧ ∃ r, t.responses = s.responses ++ [r] := by
  cases h with
  | ok v hadv _ => exact ⟨hadv.same.commands, _, congrArg (· ++ _) hadv.same.responses⟩
  | golombErr hadv _ => exact ⟨hadv.same.commands, _, congrArg (· ++ _) hadv.same.responses⟩
  | illegalCount | fresh | refused => exact ⟨rfl, _, rfl⟩

/-- A command other than INIT keeps the window, and reads the bytes it moves `off` over, all of them inside the window
(10_state.md R21, R22, 20_memory.md R51, R54). -/
structure State.ReadsInWindow (s t : State) : Prop where
  base : t.base = s.base
  len : t.len = s.len
  readOn : s.ReadOn t
  inside : t.off = s.off ∨ t.off.toNat ≤ s.len.toNat

theorem State.ReadsInWindow.refl (s : State) : s.ReadsInWindow s :=
  ⟨rfl, rfl, (State.Advances.refl s).readOn, .inl rfl⟩

theorem State.Advances.readsInWindow (h : s.Advances u) : s.ReadsInWindow u :=
  ⟨h.same.base, h.same.len, h.readOn, h.inside⟩

theorem State.ReadsInWindow.respond (h : s.ReadsInWindow u) (st : Status) (v : Value) :
    s.ReadsInWindow (u.respond st v) := ⟨h.base, h.len, h.readOn, h.inside⟩

theorem State.ReadsInWindow.respondGolombErr (h : s.ReadsInWindow u) : s.ReadsInWindow u.respondGolombErr :=
  ⟨h.base, h.len, h.readOn, h.inside⟩

theorem State.Answer.readsInWindow (h : s.Answer i t) (hinit : ∀ b l, i ≠ .init b l) : s.ReadsInWindow t := by
  cases h with
  | ok v hadv _ => exact hadv.readsInWindow.respond _ _
  | golombErr hadv _ => exact hadv.readsInWindow.respondGolombErr
  | illegalCount _ => exact (State.ReadsInWindow.refl s).respond _ _
  | fresh _ => exact absurd rfl (hinit _ _)
  | refused _ => exact absurd rfl (hinit _ _)

/-- INIT reads nothing (43_control.md R135). -/
theorem State.Answer.reads_of_init {b : Addr} {l : Offset} (h : s.Answer (.init b l) t) : t.reads = s.reads := by
  cases h with
  | ok v _ hinit => exact absurd rfl (hinit b l)
  | golombErr _ hgolomb => simp at hgolomb
  | illegalCount | fresh | refused => rfl

/-- Settles O36: the outcomes of a command other than INIT keep the window. -/
theorem onlyInitMovesTheWindow : Obligations.OnlyInitMovesTheWindow := by
  intro i s t h hinit
  have hreads := (exec_answer h).readsInWindow hinit
  exact ⟨hreads.base, hreads.len⟩

/-! #### Frames -/

theorem respondIllegal_answered (s : State) : s.Answered s.respondIllegal ⟨.illegal, 0⟩ :=
  (State.Advances.refl s).answered .illegal 0

theorem read_eq_of_exec (h : exec i s = .next t) (a : Nat) : t.mem.read a = s.mem.read a := by
  rw [exec_keeps_mem h]

/-- Settles O37: a fixed-width command answers `OK` after its reads or refuses its count. -/
theorem fixedWidthFrame : Obligations.FixedWidthFrame := by
  intro n i s t hi h
  have hanswer := exec_answer h
  have hinit : ∀ b l, i ≠ .init b l := by rcases hi with rfl | rfl | rfl <;> simp
  refine ⟨?_, (hanswer.readsInWindow hinit).readOn, read_eq_of_exec h⟩
  cases hanswer with
  | ok v hadv _ => exact ⟨_, hadv.answered _ _⟩
  | golombErr _ hgolomb => rcases hgolomb with rfl | rfl <;> simp at hi
  | illegalCount _ => exact ⟨_, respondIllegal_answered s⟩
  | fresh _ => exact absurd rfl (hinit _ _)
  | refused _ => exact absurd rfl (hinit _ _)

/-- Settles O38: a Golomb command answers `OK` or `GOLOMB_ERR` after its reads. -/
theorem golombFrame : Obligations.GolombFrame := by
  intro i s t hi h
  have hanswer := exec_answer h
  have hinit : ∀ b l, i ≠ .init b l := by rcases hi with rfl | rfl <;> simp
  refine ⟨?_, (hanswer.readsInWindow hinit).readOn, read_eq_of_exec h⟩
  cases hanswer with
  | ok v hadv _ => exact .inl ⟨_, hadv.answered _ _⟩
  | golombErr hadv _ => exact .inr hadv.answeredGolombErr
  | illegalCount hwf => rcases hi with rfl | rfl <;> exact absurd trivial hwf
  | fresh _ => exact absurd rfl (hinit _ _)
  | refused _ => exact absurd rfl (hinit _ _)

/-- Settles O39: RBSPTRAIL answers one of its two values after its reads. -/
theorem trailingFrame : Obligations.TrailingFrame := by
  intro s t h
  refine ⟨?_, ((exec_answer h).readsInWindow (by simp)).readOn, read_eq_of_exec h⟩
  obtain ⟨good, u, hread, rfl⟩ := exec_rbsptrail_eq_next.mp h
  have hanswered := (trailingCheck_advances hread).answered .ok (trailingValue good)
  rcases trailingValue_eq_zero_or_one good with hv | hv <;> rw [hv] at hanswered ⊢
  · exact .inl hanswered
  · exact .inr hanswered

/-- Settles O40: ALIGN consumes buffered bits, INIT writes the cursor or refuses; both then answer. -/
theorem alignAndInitFrame : Obligations.AlignAndInitFrame := by
  intro i s t hi h
  rcases hi with rfl | ⟨b, l, rfl⟩
  · rw [exec_align] at h
    cases h
    exact ⟨rfl, fun _ => rfl, rfl, rfl, rfl, ⟨_, rfl⟩, fun _ => ⟨rfl, rfl, rfl⟩⟩
  · rcases exec_init_eq_next.mp h with ⟨-, rfl⟩ | ⟨-, rfl⟩
    · exact ⟨rfl, fun _ => rfl, rfl, rfl, rfl, ⟨_, rfl⟩, by simp⟩
    · exact ⟨rfl, fun _ => rfl, rfl, rfl, rfl, ⟨_, rfl⟩, by simp⟩

/-! #### Responses -/

/-- A command, legal or not, takes no further command off the list and gives one response. -/
theorem runCommand_boundary {c : Command} (h : runCommand c s = .next t) :
    t.commands = s.commands ∧ ∃ r, t.responses = s.responses ++ [r] := by
  unfold runCommand at h
  split at h
  · exact (exec_answer h).boundary
  · cases h
    exact ⟨rfl, _, rfl⟩

/-- Settles O42: the step runs the command it takes off the list; that it answers is `step_inv`. -/
theorem everyCommandGetsOneResponse : Obligations.EveryCommandGetsOneResponse := by
  intro s c rest hcommands
  refine ⟨fun t h => ?_, fun hinv => (step_inv hinv).imp fun _ => And.left⟩
  rw [step_of_commands hcommands] at h
  exact runCommand_boundary h

/-- Settles O43: of the outcomes of a well-formed command, only a failed Golomb read answers `GOLOMB_ERR` and only INIT's
refusal answers `ILLEGAL`. -/
theorem errorStatusesComeFromTheirCommandsAlone : Obligations.ErrorStatusesComeFromTheirCommandsAlone := by
  intro i s t r hwf h hr
  cases exec_answer h with
  | ok v hadv _ =>
    cases response_eq_of_append hadv.same.responses hr
    exact ⟨by simp, by simp⟩
  | golombErr hadv hgolomb =>
    cases response_eq_of_append hadv.same.responses hr
    exact ⟨fun _ => hgolomb, by simp⟩
  | illegalCount hill => exact absurd hwf hill
  | fresh _ =>
    cases response_eq_of_append (u := s) rfl hr
    exact ⟨by simp, by simp⟩
  | refused hfits =>
    cases response_eq_of_append (u := s) rfl hr
    exact ⟨by simp, fun _ => ⟨⟨_, _, rfl, not_le.mp hfits⟩, rfl, rfl⟩⟩

/-! #### Addresses -/

/-- The addresses of a command's reads lie in the window, since `off` does not pass `len` where it moves. -/
theorem State.ReadsInWindow.mem_window (h : s.ReadsInWindow t) {a : Nat}
    (ha : a ∈ (List.range (t.off.toNat - s.off.toNat)).map (s.base.toNat + s.off.toNat + ·)) :
    s.base.toNat ≤ a ∧ a < s.base.toNat + s.len.toNat := by
  obtain ⟨k, hk, rfl⟩ := List.mem_map.mp ha
  have hmoved := List.mem_range.mp hk
  rcases h.inside with hoff | hoff
  · rw [hoff] at hmoved
    omega
  · omega

/-- Settles O44: a command other than INIT reads inside its window, and INIT reads nothing. -/
theorem readsStayInsideTheWindow : Obligations.ReadsStayInsideTheWindow := by
  intro i s t h
  have hanswer := exec_answer h
  by_cases hinit : ∃ b l, i = .init b l
  · obtain ⟨b, l, rfl⟩ := hinit
    exact ⟨[], by rw [hanswer.reads_of_init, List.append_nil], by simp⟩
  · have hreads := hanswer.readsInWindow fun b l hi => hinit ⟨b, l, hi⟩
    refine ⟨_, hreads.readOn.2, fun a ha => ?_⟩
    obtain ⟨hlo, hhi⟩ := hreads.mem_window ha
    refine ⟨hlo, hhi, fun hs => ?_⟩
    have hwindow := hs.window
    unfold WindowFits at hwindow
    rw [addressSpace_eq] at hwindow
    omega

/-- Reading on and then reading on again, over one window, is reading on. -/
theorem State.ReadOn.trans (hbase : t.base = s.base) (h : s.ReadOn t) (h' : t.ReadOn u) : s.ReadOn u := by
  obtain ⟨hoff, hreads⟩ := h
  obtain ⟨hoff', hreads'⟩ := h'
  have hmoved : u.off.toNat - s.off.toNat = (t.off.toNat - s.off.toNat) + (u.off.toNat - t.off.toNat) := by omega
  refine ⟨hoff.trans hoff', ?_⟩
  rw [hreads', hreads, hbase, hmoved, List.range_add, List.map_append, List.map_map, List.append_assoc]
  congr 2
  refine List.map_congr_left fun k _ => ?_
  simp only [Function.comp]
  omega

/-- No INIT stands in the client's list. -/
def State.NoInitAhead (s : State) : Prop := ∀ c ∈ s.commands, ∀ b l, decode c ≠ .ok (.init b l)

/-- A command that is no INIT keeps the window and reads on; an illegal word does neither. -/
theorem runCommand_readsInWindow {c : Command} (hc : ∀ b l, decode c ≠ .ok (.init b l))
    (h : runCommand c s = .next t) : s.ReadsInWindow t := by
  unfold runCommand at h
  split at h
  · next i hd => exact (exec_answer h).readsInWindow fun b l hi => hc b l (hi ▸ hd)
  · cases h
    exact (State.ReadsInWindow.refl s).respond _ _

theorem step_readsInWindow (hno : s.NoInitAhead) (h : step s = .next t) : s.ReadsInWindow t ∧ t.NoInitAhead := by
  cases hc : s.commands with
  | nil =>
    rw [step_of_no_command hc] at h
    cases h
    exact ⟨.refl s, hno⟩
  | cons c rest =>
    have hahead := hno
    rw [State.NoInitAhead, hc] at hahead
    rw [step_of_commands hc] at h
    have hreads := runCommand_readsInWindow (hahead c List.mem_cons_self) h
    refine ⟨⟨hreads.base, hreads.len, hreads.readOn, hreads.inside⟩, fun d hd => hahead d ?_⟩
    rw [(runCommand_boundary h).1] at hd
    exact List.mem_cons_of_mem c hd

/-- Settles O45, by induction on the number of steps: each step reads on over the same window. -/
theorem readsBetweenInitsAreConsecutive : Obligations.ReadsBetweenInitsAreConsecutive := by
  intro k
  induction k with
  | zero =>
    intro s t _ h
    cases (run_zero s).symm.trans h
    exact (State.ReadsInWindow.refl s).readOn
  | succ k ih =>
    intro s t hno h
    obtain ⟨u, hstep, hrun⟩ := run_succ_eq_next h
    obtain ⟨hreads, hno'⟩ := step_readsInWindow hno hstep
    exact State.ReadOn.trans hreads.base hreads.readOn (ih u t hno' hrun)

end Sys2Proof.Machine
end

section
/-! ### How many bytes a command reads (70_reset_and_hazards.md R182)

A refill leaves 57 bits buffered or ends the buffer (40_fixed_width.md R91), and no command but RBSPTRAIL asks for more
than 57 bits: so it refills once at most, and one refill pulls at most 8 bytes. RBSPTRAIL reads up to the end of the
buffer, and has reached it when it succeeds. -/

namespace Sys2Proof.Machine

variable {i : Instr} {s t u : State}

/-- `t` is reached from `s` with one refill at most: `off` has not moved, or it has moved by up to 8 bytes and the bits
pulled reach 57 bits past the cursor of `s`, or to the end of the buffer. -/
structure State.RefilledOnce (s t : State) : Prop where
  inv : t.Inv
  pos_le : s.pos ≤ t.pos
  once : t.off = s.off ∨
    (t.off.toNat ≤ s.off.toNat + 8 ∧ (s.pos + 57 ≤ 8 * t.off.toNat ∨ t.off = t.len))

theorem State.RefilledOnce.refl (h : s.Inv) : s.RefilledOnce s := ⟨h, le_rfl, .inl rfl⟩

theorem State.RefilledOnce.off_le (h : s.RefilledOnce t) : t.off.toNat ≤ s.off.toNat + 8 := by
  rcases h.once with hoff | ⟨hoff, -⟩
  · rw [hoff]; omega
  · exact hoff

/-- A refill after which 57 bits are buffered, or the buffer has ended. -/
theorem refill_refilledOnce (ht : t.Inv) (hpos : s.pos ≤ t.pos) (hoff : t.off = s.off) (h : refill t = .ok u) :
    s.RefilledOnce u := by
  obtain ⟨u', hu', hinv, hpos', hoff', hfull⟩ := refill_inv ht
  cases hu'.symm.trans h
  have hsum := hinv.pos_add_cnt
  have hstart : t.off.toNat = s.off.toNat := congrArg _ hoff
  exact ⟨hinv, by omega, .inr ⟨by omega, hfull.imp (by omega) id⟩⟩

/-- A request inside the first 57 bits pulls for the first time or pulls nothing. -/
theorem refillFor_refilledOnce {n : Nat} (ht : s.RefilledOnce t) (hn : t.pos + n ≤ s.pos + 57)
    (h : refillFor n t = .ok u) : s.RefilledOnce u := by
  have hsum := ht.inv.pos_add_cnt
  rcases Nat.lt_or_ge t.cnt.toNat n with hshort | henough
  · rcases ht.once with hoff | ⟨-, hreach | hend⟩
    · exact refill_refilledOnce ht.inv ht.pos_le hoff (refillFor_of_lt hshort ▸ h)
    · omega
    · cases (refillFor_of_enough (.inr hend)).symm.trans h
      exact ht
  · cases (refillFor_of_enough (.inl henough)).symm.trans h
    exact ht

/-- A read inside the first 57 bits: consuming moves the cursor alone. -/
theorem getBits_refilledOnce {n v : Nat} (ht : s.RefilledOnce t) (hn : t.pos + n ≤ s.pos + 57)
    (h : getBits n t = .ok (v, u)) : s.RefilledOnce u ∧ u.pos ≤ t.pos + n := by
  have hpos := ht.pos_le
  obtain ⟨u', hread, hinv, hupos⟩ := getBits_inv ht.inv (n := n) (by omega)
  cases hread.symm.trans h
  have hend := ht.inv.pos_le
  obtain ⟨w, hrefill, -, rfl⟩ := getBits_eq_ok.mp h
  have honce := (refillFor_refilledOnce ht hn hrefill).once
  exact ⟨⟨hinv, by omega, honce⟩, by omega⟩

theorem countZeros_refilledOnce {left zeros : Nat} {r : Option Nat} (ht : s.RefilledOnce t)
    (hn : t.pos + left ≤ s.pos + 57) (h : countZeros left zeros t = .ok (r, u)) :
    s.RefilledOnce u ∧ u.pos ≤ t.pos + left := by
  induction left generalizing zeros t with
  | zero =>
    simp only [countZeros, Except.ok.injEq, Prod.mk.injEq] at h
    rw [← h.2]
    exact ⟨ht, le_rfl⟩
  | succ left ih =>
    unfold countZeros at h
    split at h
    · next b t' hread =>
      obtain ⟨ht', hpos⟩ := getBits_refilledOnce ht (by omega) hread
      split at h
      · simp only [Except.ok.injEq, Prod.mk.injEq] at h
        rw [← h.2]
        exact ⟨ht', by omega⟩
      · obtain ⟨hu, hupos⟩ := ih ht' (by omega) h
        exact ⟨hu, by omega⟩
    · simp at h

theorem readOffset_refilledOnce {zeros : Nat} {r : Option Nat} (ht : s.RefilledOnce t)
    (hn : t.pos + zeros ≤ s.pos + 57) (h : readOffset zeros t = .ok (r, u)) : s.RefilledOnce u := by
  unfold readOffset at h
  split at h
  · simp only [Except.ok.injEq, Prod.mk.injEq] at h
    exact h.2 ▸ ht
  · split at h
    · next offset t' hread =>
      simp only [Except.ok.injEq, Prod.mk.injEq] at h
      exact h.2 ▸ (getBits_refilledOnce ht hn hread).1
    · simp at h

/-- The longest code has 21 bits up to its set bit and 20 bits after it (41_golomb.md R110). -/
theorem uvlcRead_refilledOnce {r : Option Nat} (h : s.Inv) (hread : uvlcRead s = .ok (r, u)) : s.RefilledOnce u := by
  have hstart := State.RefilledOnce.refl h
  have hcap : s.pos + (Config.maxz + 1) ≤ s.pos + 57 := by rw [maxz_eq]; omega
  unfold uvlcRead at hread
  split at hread
  · next z t hcount =>
    obtain ⟨ht, hpos⟩ := countZeros_refilledOnce hstart hcap hcount
    have hz := countZeros_lt hcount
    rw [maxz_eq] at hpos hz
    exact readOffset_refilledOnce ht (by omega) hread
  · next t hcount =>
    simp only [Except.ok.injEq, Prod.mk.injEq] at hread
    exact hread.2 ▸ (countZeros_refilledOnce hstart hcap hcount).1
  · simp at hread

/-! #### The commands -/

@[simp] theorem answerUnsigned_off (r : Option Nat) (s : State) : (answerUnsigned r s).off = s.off := by
  cases r <;> rfl

@[simp] theorem answerSigned_off (r : Option Nat) (s : State) : (answerSigned r s).off = s.off := by
  cases r <;> rfl

/-- A command that reads a bounded number of bits moves `off` by at most 8. -/
theorem exec_off_le (h : s.Inv) (hinit : ∀ b l, i ≠ .init b l) (htrail : i ≠ .rbsptrail)
    (hexec : exec i s = .next t) : t.off.toNat ≤ s.off.toNat + 8 := by
  have hstart := State.RefilledOnce.refl h
  cases i with
  | getbits n =>
    rcases exec_getbits_eq_next.mp hexec with ⟨hn, v, u, hread, rfl⟩ | ⟨-, rfl⟩
    · exact (getBits_refilledOnce hstart (by omega) hread).1.off_le
    · exact hstart.off_le
  | peekbits n =>
    rcases exec_peekbits_eq_next.mp hexec with ⟨hn, v, u, hread, rfl⟩ | ⟨-, rfl⟩
    · exact (refillFor_refilledOnce hstart (by omega) (peekBits_eq_ok.mp hread).1).off_le
    · exact hstart.off_le
  | skipbits n =>
    rcases exec_skipbits_eq_next.mp hexec with ⟨hn, v, u, hread, rfl⟩ | ⟨-, rfl⟩
    · exact (getBits_refilledOnce hstart (by omega) hread).1.off_le
    · exact hstart.off_le
  | align =>
    rw [exec_align] at hexec
    cases hexec
    exact hstart.off_le
  | uvlc =>
    obtain ⟨r, u, hread, rfl⟩ := exec_uvlc_eq_next.mp hexec
    rw [answerUnsigned_off]
    exact (uvlcRead_refilledOnce h hread).off_le
  | svlc =>
    obtain ⟨r, u, hread, rfl⟩ := exec_svlc_eq_next.mp hexec
    rw [answerSigned_off]
    exact (uvlcRead_refilledOnce h hread).off_le
  | rbsptrail => exact absurd rfl htrail
  | init b l => exact absurd rfl (hinit b l)

theorem State.ReadOn.length (h : s.ReadOn t) :
    t.reads.length = s.reads.length + (t.off.toNat - s.off.toNat) := by
  rw [h.2, List.length_append, List.length_map, List.length_range]

/-- A cursor at the end of the buffer has pulled every byte. -/
theorem State.Inv.off_eq_len (h : s.Inv) (hpos : s.pos = s.bitLen) : s.off = s.len := (h.atEnd hpos).off

/-- RBSPTRAIL with result 1 has pulled every byte: its cursor is at the end (42_trailing_bits.md R126). -/
theorem off_eq_len_of_trailing_one (h : s.Inv) (hexec : exec .rbsptrail s = .next t)
    (hone : t.responses = s.responses ++ [⟨.ok, 1⟩]) : t.off = s.len := by
  obtain ⟨u, hexec', hadv, hinv, hpos⟩ := exec_rbsptrail_inv h
  cases hexec'.symm.trans hexec
  have hvalue := congrArg Response.value (response_eq_of_append hadv.same.responses hone)
  have hgood := trailingValue_eq_one.mp hvalue.symm
  have hend : u.pos = u.bitLen := by
    rw [hpos, viewTrailing_snd_of_fst (stream_lt_two s) hgood, hadv.same.bitLen]
  exact (hinv.off_eq_len hend).trans hadv.same.len

/-- Settles O46: one refill at most for the commands that read a bounded number of bits, no read for ALIGN and INIT, and
the rest of the window for RBSPTRAIL. -/
theorem bytesReadAreBounded : Obligations.BytesReadAreBounded := by
  intro i s t h hexec
  refine ⟨fun htrail => ?bounded, fun hi => (alignAndInitFrame i s t hi hexec).1, ?trailing⟩
  case bounded =>
    by_cases hinit : ∃ b l, i = .init b l
    · rw [(alignAndInitFrame i s t (.inr hinit) hexec).1]
      omega
    · have hinit' : ∀ b l, i ≠ .init b l := fun b l hi => hinit ⟨b, l, hi⟩
      have hoff := exec_off_le h hinit' htrail hexec
      rw [((exec_answer hexec).readsInWindow hinit').readOn.length]
      omega
  case trailing =>
    rintro rfl
    have hreads := (exec_answer hexec).readsInWindow (by simp)
    have hlen := h.off_le
    rw [hreads.readOn.length]
    constructor
    · rcases hreads.inside with hoff | hoff
      · rw [hoff]; omega
      · omega
    · intro hone
      rw [off_eq_len_of_trailing_one h hexec hone]

end Sys2Proof.Machine
end

section
/-! ### A command sees the bytes not yet pulled alone (20_memory.md R51, R60, 10_state.md R33)

The byte at `base + off` is the only one a pull reads, and `off` only rises. So each operation that completes over one
memory completes in the same way over any other that agrees on the bytes ahead, and leaves such a memory behind. -/

namespace Sys2Proof.Machine

variable {i : Instr} {s t : State} {m : Memory}

/-- The state over another memory. -/
def State.withMem (s : State) (m : Memory) : State := { s with mem := m }

/-- The memory `m` agrees with that of `s` on the window's bytes not yet pulled. -/
def State.AgreesAhead (s : State) (m : Memory) : Prop :=
  ∀ k, s.off.toNat ≤ k → k < s.len.toNat → m.read (s.base.toNat + k) = s.mem.read (s.base.toNat + k)

theorem State.Advances.agreesAhead (hadv : s.Advances t) (hm : s.AgreesAhead m) : t.AgreesAhead m := by
  intro k hlo hhi
  have hoff := hadv.readOn.1
  rw [hadv.same.base, hadv.same.mem]
  rw [hadv.same.len] at hhi
  exact hm k (by omega) hhi

theorem pull_withMem (hm : s.AgreesAhead m) (hc : s.canPull = true) (h : pull s = .ok t) :
    pull (s.withMem m) = .ok (t.withMem m) := by
  have hbyte := hm s.off.toNat le_rfl (canPull_iff.mp hc).2
  rw [pull_eq] at h ⊢
  split at h
  · next haddr =>
    cases h
    rw [if_pos (show (s.withMem m).base.toNat + (s.withMem m).off.toNat < _ from haddr), ← hbyte]
    rfl
  · cases h

theorem refillLoop_withMem {k : Nat} (hm : s.AgreesAhead m) (h : refillLoop k s = .ok t) :
    refillLoop k (s.withMem m) = .ok (t.withMem m) := by
  induction k generalizing s with
  | zero => cases h; rfl
  | succ k ih =>
    by_cases hc : s.canPull = true
    · rw [refillLoop, if_pos hc] at h
      rw [refillLoop, if_pos (show (s.withMem m).canPull = true from hc)]
      split at h
      · next u hpull =>
        rw [pull_withMem hm hc hpull]
        exact ih ((pull_advances hc hpull).1.agreesAhead hm) h
      · cases h
    · rw [refillLoop, if_neg hc] at h
      rw [refillLoop, if_neg (show ¬ (s.withMem m).canPull = true from hc)]
      cases h
      rfl

theorem refillFor_withMem {n : Nat} (hm : s.AgreesAhead m) (h : refillFor n s = .ok t) :
    refillFor n (s.withMem m) = .ok (t.withMem m) := by
  rcases Nat.lt_or_ge s.cnt.toNat n with hshort | henough
  · rw [refillFor_of_lt hshort] at h
    rw [refillFor_of_lt (show (s.withMem m).cnt.toNat < n from hshort)]
    exact refillLoop_withMem hm h
  · cases (refillFor_of_enough (.inl henough)).symm.trans h
    exact refillFor_of_enough (.inl henough)

theorem getBits_withMem {n v : Nat} (hm : s.AgreesAhead m) (h : getBits n s = .ok (v, t)) :
    getBits n (s.withMem m) = .ok (v, t.withMem m) := by
  obtain ⟨u, hrefill, rfl, rfl⟩ := getBits_eq_ok.mp h
  exact getBits_eq_ok.mpr ⟨_, refillFor_withMem hm hrefill, rfl, rfl⟩

theorem peekBits_withMem {n v : Nat} (hm : s.AgreesAhead m) (h : peekBits n s = .ok (v, t)) :
    peekBits n (s.withMem m) = .ok (v, t.withMem m) := by
  obtain ⟨hrefill, rfl⟩ := peekBits_eq_ok.mp h
  exact peekBits_eq_ok.mpr ⟨refillFor_withMem hm hrefill, rfl⟩

theorem countZeros_withMem {left zeros : Nat} {r : Option Nat} (hm : s.AgreesAhead m)
    (h : countZeros left zeros s = .ok (r, t)) : countZeros left zeros (s.withMem m) = .ok (r, t.withMem m) := by
  induction left generalizing zeros s with
  | zero => cases h; rfl
  | succ left ih =>
    unfold countZeros at h ⊢
    split at h
    · next b u hread =>
      rw [getBits_withMem hm hread]
      split at h
      · next hb => cases h; simp only [hb, if_true]
      · next hb => simp only [hb, if_false]; exact ih ((getBits_advances hread).agreesAhead hm) h
    · cases h

theorem readOffset_withMem {zeros : Nat} {r : Option Nat} (hm : s.AgreesAhead m)
    (h : readOffset zeros s = .ok (r, t)) : readOffset zeros (s.withMem m) = .ok (r, t.withMem m) := by
  unfold readOffset at h ⊢
  split at h
  · next hz => cases h; rw [if_pos hz]
  · next hz =>
    rw [if_neg hz]
    split at h
    · next offset u hread => cases h; rw [getBits_withMem hm hread]
    · cases h

theorem uvlcRead_withMem {r : Option Nat} (hm : s.AgreesAhead m) (h : uvlcRead s = .ok (r, t)) :
    uvlcRead (s.withMem m) = .ok (r, t.withMem m) := by
  unfold uvlcRead at h ⊢
  split at h
  · next z u hcount =>
    rw [countZeros_withMem hm hcount]
    exact readOffset_withMem ((countZeros_advances hcount).agreesAhead hm) h
  · next u hcount => cases h; rw [countZeros_withMem hm hcount]
  · cases h

theorem trailingZeros_withMem {k : Nat} {good : Bool} (hm : s.AgreesAhead m)
    (h : trailingZeros k s = .ok (good, t)) : trailingZeros k (s.withMem m) = .ok (good, t.withMem m) := by
  have hexhausted : (s.withMem m).exhausted = s.exhausted := rfl
  induction k generalizing s with
  | zero =>
    unfold trailingZeros at h ⊢
    split at h
    · next hx => cases h; rw [if_pos (hexhausted.trans hx)]
    · cases h
  | succ k ih =>
    unfold trailingZeros at h ⊢
    rw [hexhausted]
    split at h
    · next hx => cases h; rw [if_pos hx]
    · next hx =>
      rw [if_neg hx]
      split at h
      · next b u hread =>
        rw [getBits_withMem hm hread]
        split at h
        · next hb => cases h; simp only [hb, if_true]
        · next hb => simp only [hb, if_false]; exact ih ((getBits_advances hread).agreesAhead hm) h rfl
      · cases h

theorem trailingCheck_withMem {good : Bool} (hm : s.AgreesAhead m) (h : trailingCheck s = .ok (good, t)) :
    trailingCheck (s.withMem m) = .ok (good, t.withMem m) := by
  unfold trailingCheck at h ⊢
  split at h
  · next stop u hread =>
    rw [getBits_withMem hm hread]
    split at h
    · next hstop => cases h; simp only [hstop, if_true]
    · next hstop =>
      simp only [hstop, if_false]
      exact trailingZeros_withMem ((getBits_advances hread).agreesAhead hm) h
  · cases h

theorem answerUnsigned_withMem (r : Option Nat) (s : State) (m : Memory) :
    answerUnsigned r (s.withMem m) = (answerUnsigned r s).withMem m := by
  cases r <;> rfl

theorem answerSigned_withMem (r : Option Nat) (s : State) (m : Memory) :
    answerSigned r (s.withMem m) = (answerSigned r s).withMem m := by
  cases r <;> rfl

theorem exec_withMem (hm : s.AgreesAhead m) (h : exec i s = .next t) :
    exec i (s.withMem m) = .next (t.withMem m) := by
  cases i with
  | getbits n =>
    rcases exec_getbits_eq_next.mp h with ⟨hn, v, u, hread, rfl⟩ | ⟨hn, rfl⟩
    · exact exec_getbits_of_ok hn (getBits_withMem hm hread)
    · exact exec_getbits_eq_next.mpr (.inr ⟨hn, rfl⟩)
  | peekbits n =>
    rcases exec_peekbits_eq_next.mp h with ⟨hn, v, u, hread, rfl⟩ | ⟨hn, rfl⟩
    · exact exec_peekbits_of_ok hn (peekBits_withMem hm hread)
    · exact exec_peekbits_eq_next.mpr (.inr ⟨hn, rfl⟩)
  | skipbits n =>
    rcases exec_skipbits_eq_next.mp h with ⟨hn, v, u, hread, rfl⟩ | ⟨hn, rfl⟩
    · exact exec_skipbits_of_ok hn (getBits_withMem hm hread)
    · exact exec_skipbits_eq_next.mpr (.inr ⟨hn, rfl⟩)
  | align =>
    rw [exec_align] at h ⊢
    cases h
    rfl
  | uvlc =>
    obtain ⟨r, u, hread, rfl⟩ := exec_uvlc_eq_next.mp h
    rw [exec_uvlc_of_ok (uvlcRead_withMem hm hread), answerUnsigned_withMem]
  | svlc =>
    obtain ⟨r, u, hread, rfl⟩ := exec_svlc_eq_next.mp h
    rw [exec_svlc_of_ok (uvlcRead_withMem hm hread), answerSigned_withMem]
  | rbsptrail =>
    obtain ⟨good, u, hread, rfl⟩ := exec_rbsptrail_eq_next.mp h
    exact exec_rbsptrail_of_ok (trailingCheck_withMem hm hread)
  | init b l =>
    rcases exec_init_eq_next.mp h with ⟨hfits, rfl⟩ | ⟨hfits, rfl⟩
    · exact exec_init_of_windowFits _ hfits
    · exact exec_init_of_not_windowFits _ hfits

/-- Settles O47: the state over the other memory is `withMem`, and the premise is `AgreesAhead`. -/
theorem onlyBytesNotYetPulledMatter : Obligations.OnlyBytesNotYetPulledMatter := fun _ _ _ _ hm h =>
  exec_withMem hm h

end Sys2Proof.Machine
end

section
/-! ### The cursor moves forward (10_state.md R28)

The stream view's cursor never goes back, and the invariants of the next state bound it; a refused count does not move
it. -/

namespace Sys2Proof.Machine

variable {i : Instr} {s t : State}

theorem viewUvlc_pos_le {S : Nat → Nat} {L p : Nat} (hp : p ≤ L) : p ≤ (viewUvlc S L p).2 := by
  unfold viewUvlc
  split <;> exact Nat.le_min.mpr ⟨by omega, hp⟩

theorem viewTrailing_pos_le {S : Nat → Nat} {L p : Nat} (hp : p ≤ L) : p ≤ (viewTrailing S L p).2 := by
  unfold viewTrailing
  split
  · exact Nat.le_min.mpr ⟨Nat.le_succ p, hp⟩
  · split
    · next q hq =>
      have hpq := (firstSet_eq_some.mp hq).1
      omega
    · exact hp

theorem viewExec_pos_le (hinit : ∀ b l, i ≠ .init b l) (hpos : s.pos ≤ s.bitLen) :
    s.pos ≤ (viewExec s.mem i s.view).2.pos := by
  cases i with
  | getbits n | skipbits n => exact Nat.le_min.mpr ⟨Nat.le_add_right _ _, hpos⟩
  | peekbits n => exact le_rfl
  | align =>
    change s.pos ≤ 8 * ((s.pos + 7) / 8)
    omega
  | uvlc => rw [viewExec_uvlc, golombView_view]; exact viewUvlc_pos_le hpos
  | svlc => rw [viewExec_svlc, golombView_view]; exact viewUvlc_pos_le hpos
  | rbsptrail => exact viewTrailing_pos_le hpos
  | init b l => exact absurd rfl (hinit b l)

/-- A command that is not well formed has a bit count over 32 and is refused (30_encoding.md R75, log entry 12). -/
theorem exec_of_not_wellFormed (hwf : ¬ i.WellFormed) : exec i s = .next s.respondIllegal := by
  cases i with
  | getbits n => exact exec_getbits_eq_next.mpr (.inr ⟨not_le.mp hwf, rfl⟩)
  | peekbits n => exact exec_peekbits_eq_next.mpr (.inr ⟨not_le.mp hwf, rfl⟩)
  | skipbits n => exact exec_skipbits_eq_next.mpr (.inr ⟨not_le.mp hwf, rfl⟩)
  | align | uvlc | svlc | rbsptrail | init b l => exact absurd trivial hwf

/-- Settles O50: the simulation gives the stream view's cursor, and its state meets I6 over the same window. -/
theorem cursorMovesForwardAndSaturates : Obligations.CursorMovesForwardAndSaturates := by
  intro i s t h hinit hexec
  by_cases hwf : i.WellFormed
  · obtain ⟨u, hexec', hinv, hview, -⟩ := exec_refines_view h hwf
    cases hexec'.symm.trans hexec
    have hpos : (u.reply (viewExec s.mem i s.view).1).pos = (viewExec s.mem i s.view).2.pos :=
      congrArg View.pos (reply_view.trans hview)
    have hend := (hinv.reply (viewExec s.mem i s.view).1).pos_le
    rw [State.bitLen, (onlyInitMovesTheWindow i s _ hexec hinit).2] at hend
    exact ⟨hpos ▸ viewExec_pos_le hinit h.pos_le, hend⟩
  · cases (exec_of_not_wellFormed hwf).symm.trans hexec
    exact ⟨le_rfl, h.pos_le⟩

end Sys2Proof.Machine
end

section
/-! ### Runs of a pseudo-command (30_encoding.md R82)

A sequence the client writes is executed one command per step, so a run over `skipbits` commands adds up their counts and
a run over `getbits 8` commands reads the fields one after the other. -/

namespace Sys2Proof.Machine

variable {s : State} {rest : List Command}

/-- A step takes the first command of a written sequence and executes it. -/
theorem step_of_program {i : Instr} {is : List Instr} (hwf : i.WellFormed)
    (hcommands : s.commands = program (i :: is) ++ rest) :
    step s = exec i { s with commands := program is ++ rest } :=
  step_of_decode_eq_ok hcommands (encodeThenDecodeIsIdentity i hwf)

/-- Skips add up, and stop at the end of the buffer. -/
theorem run_skipbits (ns : List BitCount) (hns : ∀ n ∈ ns, n.toNat ≤ 32) (h : s.Inv)
    (hcommands : s.commands = program (ns.map .skipbits) ++ rest) :
    ∃ t, Sys2Proof.core.run ns.length s = .next t ∧ t.commands = rest ∧
      t.pos = min (s.pos + (ns.map BitVec.toNat).sum) s.bitLen ∧
      t.responses = s.responses ++ List.replicate ns.length ⟨.ok, 0⟩ := by
  induction ns generalizing s with
  | nil => exact ⟨s, run_zero s, hcommands, (Nat.min_eq_left h.pos_le).symm, by simp⟩
  | cons n ns ih =>
    have hn : n.toNat ≤ 32 := hns n List.mem_cons_self
    obtain ⟨u, hexec, hadv, hinv, hpos⟩ := exec_skipbits_inv (h.withCommands (program (ns.map .skipbits) ++ rest)) hn
    obtain ⟨t, hrun, hrest, htpos, hresponses⟩ :=
      ih (fun m hm => hns m (List.mem_cons_of_mem n hm)) (hinv.respond .ok 0) hadv.same.commands
    have hstep : step s = .next (u.respond .ok 0) := (step_of_program hn hcommands).trans hexec
    refine ⟨t, (run_succ_of_next hstep _).trans hrun, hrest, ?pos, ?responses⟩
    case pos =>
      have hL : u.bitLen = s.bitLen := hadv.same.bitLen
      have hupos : u.pos = min (s.pos + n.toNat) s.bitLen := hpos
      rw [htpos, respond_pos, respond_bitLen, hL, hupos, List.map_cons, List.sum_cons]
      omega
    case responses =>
      rw [hresponses, respond_responses, hadv.same.responses, List.append_assoc]
      rfl

/-- The counts of `skiplong`: as many times 32 as fit, and the rest. -/
def skiplongCounts (total : Nat) : List BitCount :=
  List.replicate (total / 32) 32 ++ [BitVec.ofNat 6 (total % 32)]

theorem expand_skiplong (total : Nat) : expand (.skiplong total) = (skiplongCounts total).map .skipbits := by
  simp [expand, skiplongCounts]

theorem skiplongCounts_legal (total : Nat) : ∀ n ∈ skiplongCounts total, n.toNat ≤ 32 := by
  intro n hn
  rcases List.mem_append.mp hn with hmem | hmem
  · rw [List.eq_of_mem_replicate hmem]
    decide
  · rw [List.mem_singleton.mp hmem, BitVec.toNat_ofNat]
    omega

theorem skiplongCounts_sum (total : Nat) : ((skiplongCounts total).map BitVec.toNat).sum = total := by
  have hlast : (BitVec.ofNat 6 (total % 32)).toNat = total % 32 := by
    rw [BitVec.toNat_ofNat]
    omega
  have hfull : (32 : BitCount).toNat = 32 := rfl
  rw [skiplongCounts, List.map_append, List.map_replicate, List.map_singleton, List.sum_append, List.sum_replicate,
    List.sum_singleton, hlast, hfull, smul_eq_mul]
  omega

theorem skiplongCounts_length (total : Nat) : (skiplongCounts total).length = total / 32 + 1 := by
  simp [skiplongCounts]

/-- Settles O51: `skiplong` is a run of legal skips whose counts add up to the distance. -/
theorem skiplongSkipsAnyDistance : Obligations.SkiplongSkipsAnyDistance := by
  intro s total rest h hcommands
  rw [expand_skiplong] at hcommands
  have hrun := run_skipbits (skiplongCounts total) (skiplongCounts_legal total) h hcommands
  rw [skiplongCounts_length, skiplongCounts_sum] at hrun
  exact hrun

/-- The `j`-th answer of `getbytes`: the field of 8 bits that starts `j` bytes after the cursor. -/
def State.byteAnswer (s : State) (j : Nat) : Response := ⟨.ok, BitVec.ofNat 32 (s.field (s.pos + 8 * j) 8)⟩

/-- One byte on, the next answers are those of the stream 8 bits on, across the end of the buffer too. -/
theorem byteAnswer_succ {u : State} (hfield : ∀ p n, u.field p n = s.field p n)
    (hpos : u.pos = min (s.pos + 8) s.bitLen) (j : Nat) : u.byteAnswer j = s.byteAnswer (j + 1) := by
  have hshift : s.pos + 8 + 8 * j = s.pos + 8 * (j + 1) := by omega
  rw [State.byteAnswer, State.byteAnswer, hfield, hpos, State.field_min_bitLen, hshift]

/-- The first byte is answered before the others. -/
theorem byteAnswers_succ (s : State) (k : Nat) :
    (List.range (k + 1)).map s.byteAnswer = s.byteAnswer 0 :: (List.range k).map fun j => s.byteAnswer (j + 1) := by
  rw [List.range_succ_eq_map, List.map_cons, List.map_map]
  rfl

/-- A run of `getbits 8` commands reads byte after byte, by induction on their number. -/
theorem run_getbytes (k : Nat) (h : s.Inv) (hcommands : s.commands = program (expand (.getbytes k)) ++ rest) :
    ∃ t, Sys2Proof.core.run k s = .next t ∧ t.commands = rest ∧ t.pos = min (s.pos + 8 * k) s.bitLen ∧
      t.responses = s.responses ++ (List.range k).map s.byteAnswer := by
  induction k generalizing s with
  | zero => exact ⟨s, run_zero s, hcommands, (Nat.min_eq_left h.pos_le).symm, by simp⟩
  | succ k ih =>
    have hn : (8 : BitCount).toNat ≤ 32 := by decide
    obtain ⟨u, hexec, hadv, hinv, hupos⟩ :=
      exec_getbits_inv (h.withCommands (program (expand (.getbytes k)) ++ rest)) hn
    have hpos : u.pos = min (s.pos + 8) s.bitLen := hupos
    have hL : u.bitLen = s.bitLen := hadv.same.bitLen
    have hfield : ∀ p n, u.field p n = s.field p n := fun p n => hadv.same.field p n
    have hstep : step s = .next (u.respond .ok (zext32 (s.field s.pos 8))) := (step_of_program hn hcommands).trans hexec
    obtain ⟨t, hrun, hrest, htpos, hresponses⟩ :=
      ih (hinv.respond .ok (zext32 (s.field s.pos 8))) hadv.same.commands
    refine ⟨t, (run_succ_of_next hstep _).trans hrun, hrest, ?pos, ?responses⟩
    case pos =>
      rw [htpos, respond_pos, respond_bitLen, hL, hpos]
      omega
    case responses =>
      have hnext : (u.respond .ok (zext32 (s.field s.pos 8))).byteAnswer = fun j => s.byteAnswer (j + 1) :=
        funext (byteAnswer_succ hfield hpos)
      rw [hresponses, respond_responses, hadv.same.responses, List.append_assoc, hnext, byteAnswers_succ]
      rfl

/-- Settles O52: `run_getbytes`, with its answers written out. -/
theorem getbytesReadsConsecutiveBytes : Obligations.GetbytesReadsConsecutiveBytes := fun _ k _ => run_getbytes k

end Sys2Proof.Machine
end
